-- ==== Sys2Proof/Word.lean ====
section
/-! DEFINITION. The widths of the CORE (00_scope.md R5, R7). Arithmetic is BitVec's own: unsigned, modulo 2^n. -/

namespace Sys2Proof

/-- A byte of memory, a general register, a timer (R5 V_WIDTH, TIMER_WIDTH). -/
abbrev Byte := BitVec 8

/-- A 16-bit value: an instruction word, I, pc, a stack entry, the key vector (R5). -/
abbrev Word := BitVec 16

/-- A nibble field of an instruction word: a register index X or Y, a row count N, the family op (R7, R57). -/
abbrev Nibble := BitVec 4

/-- The 12-bit address field NNN (R57). -/
abbrev Addr := BitVec 12

end Sys2Proof
end

