-- ==== Sys2Proof/Syntax.lean ====
section
/-! DEFINITION. The decoded operations (30_encoding.md R60): one constructor per row of spec/opcode_table.json, in the table's
order, carrying its operand fields at exactly the width of the field (R57, R58). -/

namespace Sys2Proof

/-- The closed set of the 34 instructions of R60. `shr` and `shl` carry `y`, which their semantics ignore (R64). -/
inductive Instr where
  | cls                              -- 00E0  R113
  | ret                              -- 00EE  R85
  | jp        (nnn : Addr)           -- 1NNN  R86
  | call      (nnn : Addr)           -- 2NNN  R87
  | seImm     (x : Nibble) (nn : Byte)      -- 3XNN  R88
  | sneImm    (x : Nibble) (nn : Byte)      -- 4XNN  R89
  | seReg     (x y : Nibble)         -- 5XY0  R90
  | ldImm     (x : Nibble) (nn : Byte)      -- 6XNN  R93
  | addImm    (x : Nibble) (nn : Byte)      -- 7XNN  R94
  | ldReg     (x y : Nibble)         -- 8XY0  R95
  | or        (x y : Nibble)         -- 8XY1  R96
  | and       (x y : Nibble)         -- 8XY2  R97
  | xor       (x y : Nibble)         -- 8XY3  R98
  | addReg    (x y : Nibble)         -- 8XY4  R99
  | sub       (x y : Nibble)         -- 8XY5  R100
  | shr       (x y : Nibble)         -- 8XY6  R101
  | subn      (x y : Nibble)         -- 8XY7  R102
  | shl       (x y : Nibble)         -- 8XYE  R103
  | sneReg    (x y : Nibble)         -- 9XY0  R91
  | ldI       (nnn : Addr)           -- ANNN  R107
  | jpV0      (nnn : Addr)           -- BNNN  R92
  | rnd       (x : Nibble) (nn : Byte)      -- CXNN  R104
  | drw       (x y n : Nibble)       -- DXYN  R115
  | skp       (x : Nibble)           -- EX9E  R118
  | sknp      (x : Nibble)           -- EXA1  R119
  | ldVxDt    (x : Nibble)           -- FX07  R120
  | ldVxK     (x : Nibble)           -- FX0A  R121
  | ldDtVx    (x : Nibble)           -- FX15  R123
  | ldStVx    (x : Nibble)           -- FX18  R124
  | addIVx    (x : Nibble)           -- FX1E  R108
  | ldFVx     (x : Nibble)           -- FX29  R109
  | ldBVx     (x : Nibble)           -- FX33  R110
  | storeRegs (x : Nibble)           -- FX55  R111
  | loadRegs  (x : Nibble)           -- FX65  R112
  deriving DecidableEq, Repr

end Sys2Proof
end

