-- ==== Sys2Proof/Decode.lean ====
section
/-! DEFINITION. The decoder (30_encoding.md R59 to R67), total on every word and rejecting by name, and after it the encoder,
written from the same patterns (R60). -/

namespace Sys2Proof

/-! ### Fields of a word (R57) -/

/-- op = w[15:12], the family. -/
def fieldOp (w : Word) : Nibble := w.extractLsb' 12 4
/-- X = w[11:8]. -/
def fieldX (w : Word) : Nibble := w.extractLsb' 8 4
/-- Y = w[7:4]. -/
def fieldY (w : Word) : Nibble := w.extractLsb' 4 4
/-- N = w[3:0]. -/
def fieldN (w : Word) : Nibble := w.extractLsb' 0 4
/-- NN = w[7:0]. -/
def fieldNN (w : Word) : Byte := w.extractLsb' 0 8
/-- NNN = w[11:0]. -/
def fieldNNN (w : Word) : Addr := w.extractLsb' 0 12

/-- The word at two consecutive bytes, big-endian (20_memory.md R43): the byte at the lower address is bits 15..8. -/
def wordOfBytes (hi lo : Byte) : Word := hi ++ lo

/-- Bits 15..8 of a word: the byte stored at the lower address (R43). -/
def highByte (w : Word) : Byte := w.extractLsb' 8 8
/-- Bits 7..0 of a word: the byte stored at the higher address (R43). -/
def lowByte (w : Word) : Byte := w.extractLsb' 0 8

/-! ### The decoder -/

/-- R59: `DecodedOp + DecodeFailure(Word16)`. -/
inductive Decoded where
  | op (i : Instr)
  /-- the word names no instruction; the failure carries it -/
  | failure (w : Word)
  deriving DecidableEq, Repr

/-- Family 0 (R62): two words, by their whole value. -/
def decodeFamily0 (w : Word) : Decoded :=
  if w = 0x00E0#16 then .op .cls
  else if w = 0x00EE#16 then .op .ret
  else .failure w

/-- Family 5 (R63). -/
def decodeFamily5 (w : Word) : Decoded :=
  if fieldN w = 0x0#4 then .op (.seReg (fieldX w) (fieldY w)) else .failure w

/-- Family 9 (R63). -/
def decodeFamily9 (w : Word) : Decoded :=
  if fieldN w = 0x0#4 then .op (.sneReg (fieldX w) (fieldY w)) else .failure w

/-- Family 8 (R64), on the low nibble. -/
def decodeFamily8 (w : Word) : Decoded :=
  match (fieldN w).toNat with
  | 0x0 => .op (.ldReg (fieldX w) (fieldY w))
  | 0x1 => .op (.or (fieldX w) (fieldY w))
  | 0x2 => .op (.and (fieldX w) (fieldY w))
  | 0x3 => .op (.xor (fieldX w) (fieldY w))
  | 0x4 => .op (.addReg (fieldX w) (fieldY w))
  | 0x5 => .op (.sub (fieldX w) (fieldY w))
  | 0x6 => .op (.shr (fieldX w) (fieldY w))
  | 0x7 => .op (.subn (fieldX w) (fieldY w))
  | 0xE => .op (.shl (fieldX w) (fieldY w))
  | _   => .failure w

/-- Family E (R65), on the low byte. -/
def decodeFamilyE (w : Word) : Decoded :=
  if fieldNN w = 0x9E#8 then .op (.skp (fieldX w))
  else if fieldNN w = 0xA1#8 then .op (.sknp (fieldX w))
  else .failure w

/-- Family F (R66), on the low byte, not the low 12 bits (90_conflicts.md C2); StoreRegs for 0x55 alone (C3). -/
def decodeFamilyF (w : Word) : Decoded :=
  if fieldNN w = 0x07#8 then .op (.ldVxDt (fieldX w))
  else if fieldNN w = 0x0A#8 then .op (.ldVxK (fieldX w))
  else if fieldNN w = 0x15#8 then .op (.ldDtVx (fieldX w))
  else if fieldNN w = 0x18#8 then .op (.ldStVx (fieldX w))
  else if fieldNN w = 0x1E#8 then .op (.addIVx (fieldX w))
  else if fieldNN w = 0x29#8 then .op (.ldFVx (fieldX w))
  else if fieldNN w = 0x33#8 then .op (.ldBVx (fieldX w))
  else if fieldNN w = 0x55#8 then .op (.storeRegs (fieldX w))
  else if fieldNN w = 0x65#8 then .op (.loadRegs (fieldX w))
  else .failure w

/-- The decode algorithm of R61. The last arm is family 0xF, the one nibble value left. -/
def decode (w : Word) : Decoded :=
  match (fieldOp w).toNat with
  | 0x0 => decodeFamily0 w
  | 0x1 => .op (.jp (fieldNNN w))
  | 0x2 => .op (.call (fieldNNN w))
  | 0x3 => .op (.seImm (fieldX w) (fieldNN w))
  | 0x4 => .op (.sneImm (fieldX w) (fieldNN w))
  | 0x5 => decodeFamily5 w
  | 0x6 => .op (.ldImm (fieldX w) (fieldNN w))
  | 0x7 => .op (.addImm (fieldX w) (fieldNN w))
  | 0x8 => decodeFamily8 w
  | 0x9 => decodeFamily9 w
  | 0xA => .op (.ldI (fieldNNN w))
  | 0xB => .op (.jpV0 (fieldNNN w))
  | 0xC => .op (.rnd (fieldX w) (fieldNN w))
  | 0xD => .op (.drw (fieldX w) (fieldY w) (fieldN w))
  | 0xE => decodeFamilyE w
  | _   => decodeFamilyF w

/-- The decoder over a byte stream: the first two bytes are the word (R43, R56), the rest is left over; fewer than two bytes
hold no word. -/
def decodeBytes : List Byte → Option (Decoded × List Byte)
  | hi :: lo :: rest => some (decode (wordOfBytes hi lo), rest)
  | _ => none

/-! ### The encoder (R57, R60) -/

/-- A word of four nibble fields. -/
def word4 (op x y n : Nibble) : Word := op ++ x ++ y ++ n
/-- A word of op, X and NN. -/
def wordNN (op x : Nibble) (nn : Byte) : Word := op ++ x ++ nn
/-- A word of op and NNN. -/
def wordNNN (op : Nibble) (nnn : Addr) : Word := op ++ nnn

/-- The word of an instruction, by the pattern column of R60. -/
def encode : Instr → Word
  | .cls         => 0x00E0#16
  | .ret         => 0x00EE#16
  | .jp nnn      => wordNNN 0x1#4 nnn
  | .call nnn    => wordNNN 0x2#4 nnn
  | .seImm x nn  => wordNN 0x3#4 x nn
  | .sneImm x nn => wordNN 0x4#4 x nn
  | .seReg x y   => word4 0x5#4 x y 0x0#4
  | .ldImm x nn  => wordNN 0x6#4 x nn
  | .addImm x nn => wordNN 0x7#4 x nn
  | .ldReg x y   => word4 0x8#4 x y 0x0#4
  | .or x y      => word4 0x8#4 x y 0x1#4
  | .and x y     => word4 0x8#4 x y 0x2#4
  | .xor x y     => word4 0x8#4 x y 0x3#4
  | .addReg x y  => word4 0x8#4 x y 0x4#4
  | .sub x y     => word4 0x8#4 x y 0x5#4
  | .shr x y     => word4 0x8#4 x y 0x6#4
  | .subn x y    => word4 0x8#4 x y 0x7#4
  | .shl x y     => word4 0x8#4 x y 0xE#4
  | .sneReg x y  => word4 0x9#4 x y 0x0#4
  | .ldI nnn     => wordNNN 0xA#4 nnn
  | .jpV0 nnn    => wordNNN 0xB#4 nnn
  | .rnd x nn    => wordNN 0xC#4 x nn
  | .drw x y n   => word4 0xD#4 x y n
  | .skp x       => wordNN 0xE#4 x 0x9E#8
  | .sknp x      => wordNN 0xE#4 x 0xA1#8
  | .ldVxDt x    => wordNN 0xF#4 x 0x07#8
  | .ldVxK x     => wordNN 0xF#4 x 0x0A#8
  | .ldDtVx x    => wordNN 0xF#4 x 0x15#8
  | .ldStVx x    => wordNN 0xF#4 x 0x18#8
  | .addIVx x    => wordNN 0xF#4 x 0x1E#8
  | .ldFVx x     => wordNN 0xF#4 x 0x29#8
  | .ldBVx x     => wordNN 0xF#4 x 0x33#8
  | .storeRegs x => wordNN 0xF#4 x 0x55#8
  | .loadRegs x  => wordNN 0xF#4 x 0x65#8

/-! ### The host's word numbering -/

/-- The 16-bit word of `nbits` bits given as a number, bit 0 least significant; every bit above `nbits` is 0. -/
def tableWord (nbits w : Nat) : Word := BitVec.ofNat 16 (w % 2 ^ nbits)

/-- The instruction the decoder reads from the word's two bytes in storage order; none where it refuses. -/
def decodeTableWord (nbits w : Nat) : Option Instr :=
  match decode (wordOfBytes (highByte (tableWord nbits w)) (lowByte (tableWord nbits w))) with
  | .op i => some i
  | .failure _ => none

end Sys2Proof
end

