-- ==== Sys2Proof/Config.lean ====
section
/-! DEFINITION. What an implementation fixes (00_scope.md R5, R6) and the model's one free value.

The open parameters P_… of R6 are a record of plain data that State carries (log 1): no event writes it, so a statement about
every state is a statement about every parameter value, and a run still computes. -/

namespace Sys2Proof

/-- P_SPRITE_BIT_ORDER (R6, R114): which end of a sprite byte is the leftmost column. The spec names only the
default msb_left; that `lsbLeft` is the one other value, and what it means, is the model's DESIGN CHOICE (log 13). -/
inductive BitOrder where
  | msbLeft
  | lsbLeft
  deriving DecidableEq, Repr

/-- P_DRAW_VERTICAL (R6, R114): what happens to sprite rows below row 31. -/
inductive DrawVertical where
  | clip
  | wrap
  deriving DecidableEq, Repr

/-- P_KEY_WAIT_TRIGGER (R6, R122): whether FX0A needs a new press or accepts a held key. -/
inductive KeyTrigger where
  | edge
  | level
  deriving DecidableEq, Repr

/-- P_FLAG_ORDER (R6, R15): which write wins when the data destination is VF. -/
inductive FlagOrder where
  | flagLast
  | dataLast
  deriving DecidableEq, Repr

/-- P_LOW_MEMORY_WRITES (R6, R47): what FX33 and FX55 do below 0x200. -/
inductive LowWrites where
  | allow
  | fault
  deriving DecidableEq, Repr

/-- P_LOADER_OVERSIZE (R6, R149): what Load does with an image of more than 3584 bytes. -/
inductive Oversize where
  | reject
  | truncate
  deriving DecidableEq, Repr

/-- The parameters of R6. `fontBase` is an address of memory (log 14), `fontData` 16 glyphs of 5 bytes
(R5 GLYPHS, R41). -/
structure Params where
  fontBase        : Addr
  fontData        : Vector (Vector Byte 5) 16
  spriteBitOrder  : BitOrder
  drawVertical    : DrawVertical
  keyWaitTrigger  : KeyTrigger
  flagOrder       : FlagOrder
  lowMemoryWrites : LowWrites
  loaderOversize  : Oversize
  deriving DecidableEq, Repr

namespace Config

/-- MEM_SIZE (R5): addresses 0x000..0xFFF. -/
abbrev memSize : Nat := 0x1000

/-- PROGRAM_BASE (R5): the reset pc, the loader's offset, and the end of the reserved region (R40). -/
abbrev programBase : Nat := 0x200

/-- MAX_IMAGE (R5): 4096 - 0x200 bytes. -/
abbrev maxImage : Nat := 3584

/-- Glyphs 0 to 7 of P_FONT_DATA's default (R42, which marks the bytes as general knowledge; log 2). -/
def fontLow : Vector (Vector Byte 5) 8 := #v[
  #v[0xF0, 0x90, 0x90, 0x90, 0xF0],
  #v[0x20, 0x60, 0x20, 0x20, 0x70],
  #v[0xF0, 0x10, 0xF0, 0x80, 0xF0],
  #v[0xF0, 0x10, 0xF0, 0x10, 0xF0],
  #v[0x90, 0x90, 0xF0, 0x10, 0x10],
  #v[0xF0, 0x80, 0xF0, 0x10, 0xF0],
  #v[0xF0, 0x80, 0xF0, 0x90, 0xF0],
  #v[0xF0, 0x10, 0x20, 0x40, 0x40]]

/-- Glyphs 8 to F of P_FONT_DATA's default (R42; log 2). -/
def fontHigh : Vector (Vector Byte 5) 8 := #v[
  #v[0xF0, 0x90, 0xF0, 0x90, 0xF0],
  #v[0xF0, 0x90, 0xF0, 0x10, 0xF0],
  #v[0xF0, 0x90, 0xF0, 0x90, 0x90],
  #v[0xE0, 0x90, 0xE0, 0x90, 0xE0],
  #v[0xF0, 0x80, 0x80, 0x80, 0xF0],
  #v[0xE0, 0x90, 0x90, 0x90, 0xE0],
  #v[0xF0, 0x80, 0xF0, 0x80, 0xF0],
  #v[0xF0, 0x80, 0xF0, 0x80, 0x80]]

/-- The defaults of R6. -/
def defaults : Params where
  fontBase        := 0x050
  fontData        := fontLow ++ fontHigh
  spriteBitOrder  := .msbLeft
  drawVertical    := .clip
  keyWaitTrigger  := .edge
  flagOrder       := .flagLast
  lowMemoryWrites := .allow
  loaderOversize  := .reject

/-- The random byte of the Cycle call of a given number, where the environment's queue gives none: FREE (R139: "an
unconstrained draw"; log 6). It has no body, so no proof can know a value of it. -/
opaque freeRnd : Nat → Byte

end Config

end Sys2Proof
end

