-- ==== Sys2Proof/Machine/State.lean ====
section
/-! DEFINITION. The machine's state as plain data (10_state.md R13 to R38), the reasons a step can stop, and the state after
reset (R36). INVENTORY.md lists every field with its rule and its reset value. -/

namespace Sys2Proof.Machine

/-- Why a cycle faulted (R28, 60_exceptions.md R125). `base` and `len` belong to MemoryBoundsError only, so they are its
arguments (log 15). -/
inductive Cause where
  | decodeError
  | stackOverflow
  | stackUnderflow
  | memoryBoundsError (base : Word) (len : Nat)
  deriving DecidableEq, Repr

/-- The fault record of R28. `word` is absent exactly for a fetch MemoryBoundsError. -/
structure FaultRecord where
  cause : Cause
  fpc   : Word
  word  : Option Word
  deriving DecidableEq, Repr

/-- The status register (R26). -/
inductive Status where
  | running
  | awaitingKey (x : Nibble)
  | halted
  | faulted (f : FaultRecord)
  deriving DecidableEq, Repr

/-- What a Load answered (R149). -/
inductive LoadResult where
  | loaded
  | rejected
  deriving DecidableEq, Repr

/-- The environment's events (00_scope.md R12; ports R31 to R34). -/
inductive Event where
  /-- a Cycle call with its two inputs (R31) -/
  | cycle (keys : Word) (rnd : Byte)
  /-- the 60 Hz timer strobe (R32) -/
  | tick
  /-- the Reset port (R33) -/
  | reset
  /-- the Load port (R34) -/
  | load (image : List Byte)
  deriving DecidableEq, Repr

/-- The environment's side: input ports, and what it will do next. The model's own fields, not the spec's state
(R25, R29; logs 4, 5, 6, 8). -/
structure Env where
  /-- the key port, `keys[k] = 1` where key k is pressed (R25) -/
  keys    : Word
  /-- the random port of this cycle: a byte the environment gave, or none, a free value (R139) -/
  rnd     : Option Byte
  /-- the events still to come, oldest first; when it is empty the environment calls Cycle (log 4) -/
  events  : List Event
  /-- the number of Cycle calls made, where the free random byte is drawn (log 6) -/
  cycleNo : Nat
  /-- whether a Cycle was called since the latest Reset (R148) -/
  started : Bool
  deriving DecidableEq, Repr

/-- The framebuffer, 32 rows of 64 cells, row-major (R24); a cell holds 0 or 1, so it is a Bool (log 12). -/
abbrev Framebuffer := Vector Bool 2048

/-- The state of the CORE. -/
structure State where
  /-- the parameters of R6; no event writes them (log 1) -/
  params : Params
  /-- V[0]..V[15] (R13) -/
  v      : Vector Byte 16
  /-- the index register (R16) -/
  I      : Word
  /-- the program counter (R17) -/
  pc     : Word
  /-- the number of stack entries in use (R19) -/
  sp     : Fin 17
  /-- the call stack (R19) -/
  stack  : Vector Word 16
  /-- the delay timer (R21) -/
  dt     : Byte
  /-- the sound timer (R22) -/
  st     : Byte
  /-- memory (R23, R39): the bytes that differ from the reset contents, by rising address (log 20) -/
  mem    : List Host.Cell
  /-- the framebuffer (R24) -/
  fb     : Framebuffer
  /-- the status register with its fault record (R26, R28) -/
  status : Status
  /-- the key latch (R27) -/
  klatch : Word
  /-- display_update of the latest Cycle call (R31; log 7) -/
  displayUpdate : Bool
  /-- what the latest Load answered (R149; log 7) -/
  loadResult    : Option LoadResult
  /-- the environment's side -/
  env    : Env
  deriving DecidableEq, Repr

/-- The host's reasons for a machine that stops OUTSIDE its state. This machine has none: every fault of R125 is a state
(R83: "A fault is a state, not an exception of the model"), so nobody raises one. Safe (log 16). -/
inductive Fault where
  deriving DecidableEq, Repr

/-- Reasons a step has no meaning. -/
inductive Refusal where
  /-- Raised only by an arm of `exec` for an instruction without a meaning. Safe: nothing can be proved of its effect. -/
  | notModelled (mnemonic : String)
  /-- Raised by the Load event after the first Cycle call since a Reset: "outside the model" (70_reset_and_hazards.md R148;
  93_implementation_defined.md: `refuse`). No instruction raises it. Safe (log 8). -/
  | loadDuringRun
  deriving DecidableEq, Repr

/-- The machine right after Reset (R36, R37, R144), with the default parameters of R6. Memory lists nothing: every byte reads
as its reset contents, the font and zeros. -/
def State.reset : State where
  params := Config.defaults
  v      := Vector.replicate 16 0x00#8
  I      := 0x0000#16
  pc     := 0x0200#16
  sp     := 0
  stack  := Vector.replicate 16 0x0000#16
  dt     := 0x00#8
  st     := 0x00#8
  mem    := []
  fb     := Vector.replicate 2048 false
  status := .running
  klatch := 0x0000#16
  displayUpdate := false
  loadResult    := none
  env    := ⟨0x0000#16, none, [], 0, false⟩

end Sys2Proof.Machine
end

