-- ==== Sys2Proof/Machine/Memory.lean ====
section
/-! DEFINITION. Memory as a list of (address, byte) pairs in one canonical form (20_memory.md R39, R41, R49, R53): addresses
strictly rising and below 0x1000, and no entry equal to what an unlisted address reads as. -/

namespace Sys2Proof.Machine

/-- What an address reads as when nothing is listed for it: its contents after Reset (R36, R144), the font at P_FONT_BASE
(R41: glyph g at `P_FONT_BASE + 5*g`) and 0x00 elsewhere (log 20). -/
def unlisted (p : Params) (a : Nat) : Byte :=
  if h : p.fontBase.toNat ≤ a ∧ a < p.fontBase.toNat + 80 then
    (p.fontData[(a - p.fontBase.toNat) / 5]'(by omega))[(a - p.fontBase.toNat) % 5]'(by omega)
  else 0x00#8

namespace Memory

/-- The byte at an address. -/
def read (p : Params) : List Host.Cell → Nat → Byte
  | [], a => unlisted p a
  | c :: m, a => if c.1 = a then c.2 else read p m a

/-- List a byte at its place, over any entry for the same address. -/
def insert : List Host.Cell → Nat → Byte → List Host.Cell
  | [], a, b => [(a, b)]
  | c :: m, a, b =>
    if a < c.1 then (a, b) :: c :: m
    else if a = c.1 then (a, b) :: m
    else c :: insert m a b

/-- Drop every entry for an address (there is at most one in a canonical list). -/
def erase : List Host.Cell → Nat → List Host.Cell
  | [], _ => []
  | c :: m, a => if c.1 = a then erase m a else c :: erase m a

/-- Store a byte, keeping the canonical form: the byte an unlisted address reads as is not listed. -/
def write (p : Params) (m : List Host.Cell) (a : Nat) (b : Byte) : List Host.Cell :=
  if b = unlisted p a then erase m a else insert m a b

/-- Store bytes at consecutive rising addresses (R45: "bytes, in order"). -/
def writeBytes (p : Params) (m : List Host.Cell) (a : Nat) : List Byte → List Host.Cell
  | [] => m
  | b :: bs => writeBytes p (write p m a b) (a + 1) bs

/-- The `n` bytes at consecutive rising addresses from `a` (R45). -/
def readBytes (p : Params) (m : List Host.Cell) (a : Nat) : Nat → List Byte
  | 0 => []
  | n + 1 => read p m a :: readBytes p m (a + 1) n

/-- The canonical form. -/
abbrev wf (p : Params) (m : List Host.Cell) : Prop :=
  m.Pairwise (fun c d => c.1 < d.1) ∧ ∀ c ∈ m, c.1 < Config.memSize ∧ c.2 ≠ unlisted p c.1

end Memory

end Sys2Proof.Machine
end

