-- ==== Sys2Proof/Machine/Ops.lean ====
section
/-! DEFINITION. The named operations every meaning is written with (00_scope.md R9): reads and writes of registers, bytes and
framebuffer cells, the bounds checks, push and pop, skip, and taking a fault. -/

namespace Sys2Proof.Machine

/-- What every meaning answers. -/
abbrev Result := Host.Outcome State Fault Refusal

namespace State

/-! ### Registers (R9, R13, R16, R17, R21, R22) -/

/-- `V[x]`. -/
def getV (s : State) (x : Nibble) : Byte := s.v[x.toNat]'x.isLt
/-- `V[x] <- b`. -/
def setV (s : State) (x : Nibble) (b : Byte) : State := { s with v := s.v.set x.toNat b x.isLt }
/-- `I <- w`. -/
def setI (s : State) (w : Word) : State := { s with I := w }
/-- `pc <- w`. -/
def setPc (s : State) (w : Word) : State := { s with pc := w }
/-- `DT <- b`. -/
def setDt (s : State) (b : Byte) : State := { s with dt := b }
/-- `ST <- b`. -/
def setSt (s : State) (b : Byte) : State := { s with st := b }
/-- The status register written. -/
def setStatus (s : State) (t : Status) : State := { s with status := t }
/-- The key latch written (R27). -/
def setKlatch (s : State) (w : Word) : State := { s with klatch := w }
/-- The framebuffer written, with the display told (R31, R117: display_update of the cycle is true). -/
def showFb (s : State) (fb : Framebuffer) : State := { s with fb := fb, displayUpdate := true }

/-- V[k], V[k+1], … <- the bytes, ascending (43_index_memory.md R112). -/
def setVs (s : State) (k : Nat) : List Byte → State
  | [] => s
  | b :: bs => setVs (s.setV (BitVec.ofNat 4 k) b) (k + 1) bs

/-- The bytes V[0], …, V[n-1] (43_index_memory.md R111). -/
def firstVs (s : State) (n : Nat) : List Byte := (List.range n).map fun j => s.getV (BitVec.ofNat 4 j)

/-! ### Memory (R9, R45) -/

/-- `MemRead(a, 1)`. -/
def readByte (s : State) (a : Nat) : Byte := Memory.read s.params s.mem a
/-- The bytes at a, a+1, …. -/
def readBytes (s : State) (a n : Nat) : List Byte := Memory.readBytes s.params s.mem a n
/-- `MemWrite(a, 1, b)`, `MemWrite(a+1, 1, b')`, …. -/
def storeBytes (s : State) (a : Nat) (bs : List Byte) : State :=
  { s with mem := Memory.writeBytes s.params s.mem a bs }

/-! ### Control (40_cycle.md R77, R78) -/

/-- The advance of R77, made before decode and execute. -/
def advance (s : State) : State := s.setPc (s.pc + 2)
/-- `Skip` of R78: a further 2 on the already advanced pc. -/
def skip (s : State) : State := s.setPc (s.pc + 2)
/-- `if c: Skip`. -/
def skipIf (s : State) (c : Bool) : State := if c then s.skip else s

/-! ### The call stack (10_state.md R20) -/

/-- `Push(w)`; none is StackOverflow, when sp = 16. -/
def push (s : State) (w : Word) : Option State :=
  if h : s.sp.val < 16 then
    some { s with stack := s.stack.set s.sp.val w h, sp := ⟨s.sp.val + 1, by omega⟩ }
  else none

/-- `Pop()`, the entry and the state after; none is StackUnderflow, when sp = 0. The entry popped is not cleared (R19). -/
def pop (s : State) : Option (Word × State) :=
  if h : 0 < s.sp.val then
    some (s.stack[s.sp.val - 1]'(by omega), { s with sp := ⟨s.sp.val - 1, by omega⟩ })
  else none

/-! ### Faults (40_cycle.md R81, 60_exceptions.md R129) -/

/-- TAKING A FAULT, the one shared operation: given the state of the cycle's start but for the pc, put the pc back to the
address `A` of the instruction, record the fault and signal no display update. There is no saved status, no vector and no return
(R129, R132). Every check stands before every write, so nothing else is to be undone (R81: "an implementation may equally detect
the fault before any write"; log 11). -/
def takeFault (s : State) (c : Cause) (A : Word) (w : Option Word) : State :=
  { s with pc := A, status := .faulted ⟨c, A, w⟩, displayUpdate := false }

/-- The fault of a running instruction: it stands at pc - 2, because execute begins with pc = A + 2 (R80), and its word is its
encoding, because each word decodes to one instruction (R67; log 10). -/
def raiseFault (s : State) (i : Instr) (c : Cause) : State := s.takeFault c (s.pc - 2) (some (encode i))

end State

/-! ### Bounds checks (20_memory.md R46, R47) -/

/-- `CheckRange(base, len)`: the fault it raises, or none. The sum is exact. -/
def checkRange (base : Word) (len : Nat) : Option Cause :=
  if 0 < len ∧ base.toNat + len - 1 > 0xFFF then some (.memoryBoundsError base len) else none

/-- `CheckLowWrite(base, len)`: the fault it raises, or none. -/
def checkLowWrite (p : Params) (base : Word) (len : Nat) : Option Cause :=
  if p.lowMemoryWrites = .fault ∧ 0 < len ∧ base.toNat < Config.programBase then some (.memoryBoundsError base len) else none

/-- CheckRange then CheckLowWrite, as FX33 and FX55 run them (R47, R130). -/
def checkStore (p : Params) (base : Word) (len : Nat) : Option Cause :=
  (checkRange base len).or (checkLowWrite p base len)

/-- Run the rest of an instruction unless its check raised a fault. -/
def guarded (s : State) (i : Instr) (check : Option Cause) (rest : State) : Result :=
  match check with
  | some c => .next (s.raiseFault i c)
  | none => .next rest

/-! ### The framebuffer (10_state.md R24) -/

/-- The row-major index `y * 64 + x`. -/
abbrev cellIndex (y : Fin 32) (x : Fin 64) : Nat := y.val * 64 + x.val

/-- `fb[y][x]`. -/
def cell (fb : Framebuffer) (y : Fin 32) (x : Fin 64) : Bool := fb[cellIndex y x]'(by unfold cellIndex; omega)

/-- `fb[y][x] <- b`. -/
def setCell (fb : Framebuffer) (y : Fin 32) (x : Fin 64) (b : Bool) : Framebuffer :=
  fb.set (cellIndex y x) b (by unfold cellIndex; omega)

/-- The clear framebuffer (R113). -/
def clearFb : Framebuffer := Vector.replicate 2048 false

/-! ### Outputs (10_state.md R31, R35) -/

/-- The result of a cycle (R31): Running also while a key is awaited. -/
inductive CycleResult where
  | running
  | halted
  | faulted (f : FaultRecord)
  deriving DecidableEq, Repr

namespace State

/-- The first component of what Cycle returns (R31, R82; log 17). -/
def result (s : State) : CycleResult :=
  match s.status with
  | .running | .awaitingKey _ => .running
  | .halted => .halted
  | .faulted f => .faulted f

/-- `sound_active = bool(ST != 0)` (R35, 60_exceptions.md R138). -/
def soundActive (s : State) : Bool := s.st != 0

/-- The framebuffer's read port: 0 or 1 per cell (R24, R35). -/
def pixel (s : State) (y : Fin 32) (x : Fin 64) : Byte := if cell s.fb y x then 1 else 0

end State

/-- The numeric cause codes of R125. -/
def Cause.code : Cause → Nat
  | .decodeError => 1
  | .stackOverflow => 2
  | .stackUnderflow => 3
  | .memoryBoundsError _ _ => 4

end Sys2Proof.Machine
end

