-- ==== Sys2Proof/Machine/Flags.lean ====
section
/-! DEFINITION. The flag computations (10_state.md R14) and the order of the data and flag writes (R15). Each flag is computed
from the operands before the instruction, exactly, as a natural number where it can carry (R105). -/

namespace Sys2Proof.Machine

/-- VF = V[15] (R13, R14). -/
abbrev VF : Nibble := 0xF#4

/-- `bool(c)` (00_scope.md R8). -/
def flagByte (c : Bool) : Byte := if c then 1#8 else 0#8

/-- 8XY4: the exact sum overflows 255 (42_alu.md R99). -/
def carryFlag (a b : Byte) : Byte := flagByte (decide (a.toNat + b.toNat > 255))

/-- 8XY5 and 8XY7: no borrow, `a >= b` for `a - b` (42_alu.md R100, R102). -/
def noBorrowFlag (a b : Byte) : Byte := flagByte (decide (a.toNat ≥ b.toNat))

/-- 8XY6: bit 0 before the shift (42_alu.md R101). -/
def lowBitFlag (a : Byte) : Byte := flagByte (a.getLsbD 0)

/-- 8XYE: bit 7 before the shift (42_alu.md R103). -/
def highBitFlag (a : Byte) : Byte := flagByte (a.getLsbD 7)

/-- FX1E: the exact sum exceeds 0xFFF, before the 16-bit wrap (43_index_memory.md R108). -/
def indexFlag (i : Word) (b : Byte) : Byte := flagByte (decide (i.toNat + b.toNat > 0xFFF))

/-- `WriteWithFlag(d, r, f)` for d a register (R15). -/
def State.writeWithFlag (s : State) (d : Nibble) (r f : Byte) : State :=
  match s.params.flagOrder with
  | .flagLast => (s.setV d r).setV VF f
  | .dataLast => (s.setV VF f).setV d r

/-- `WriteWithFlag(I, r, f)` (R15): the destination is I, so the order cannot matter (R108). -/
def State.writeIWithFlag (s : State) (r : Word) (f : Byte) : State :=
  match s.params.flagOrder with
  | .flagLast => (s.setI r).setV VF f
  | .dataLast => (s.setV VF f).setI r

end Sys2Proof.Machine
end

