-- ==== Sys2Proof/Machine/Operands.lean ====
section
/-! DEFINITION. The operand forms: 12-bit addresses, key indices, glyph addresses, the random byte, decimal digits, sprite
coordinates (30_encoding.md R58). -/

namespace Sys2Proof.Machine

/-- `zext_16(NNN)` (R8, R58). -/
def zext16 (nnn : Addr) : Word := nnn.setWidth 16

/-- `zext_16` of a byte (41_control_flow.md R92). -/
def zext16Byte (b : Byte) : Word := b.setWidth 16

/-- A key code or register number as a byte (45_input_timers.md R122: "0x0..0xF"). -/
def nibbleByte (k : Nibble) : Byte := k.setWidth 8

/-- The low nibble of a byte, `b & 0xF`, as an index (R109, R118, R119). -/
def lowNibble (b : Byte) : Nibble := (b &&& 0x0F#8).setWidth 4

/-- `keys[k] = 1` (10_state.md R25). -/
def keyPressed (keys : Word) (k : Nibble) : Bool := keys.getLsbD k.toNat

/-- The address of glyph g, `P_FONT_BASE + 5 * g` (20_memory.md R41, 43_index_memory.md R109). -/
def glyphAddress (p : Params) (g : Nibble) : Word := zext16 p.fontBase + 5#16 * g.setWidth 16

/-- The cycle's random byte (60_exceptions.md R139): the environment's, or the free value of this cycle (log 6). -/
def State.rndByte (s : State) : Byte := s.env.rnd.getD (Config.freeRnd s.env.cycleNo)

/-- The three decimal digits, hundreds first (43_index_memory.md R110). -/
def bcdDigits (b : Byte) : List Byte := [b / 100#8, (b / 10#8) % 10#8, b % 10#8]

/-- `V[X] mod 64`, the sprite's left column (44_display.md R114). -/
def spriteX (b : Byte) : Fin 64 := Fin.ofNat 64 b.toNat

/-- `V[Y] mod 32`, the sprite's top row (44_display.md R114). -/
def spriteY (b : Byte) : Fin 32 := Fin.ofNat 32 b.toNat

end Sys2Proof.Machine
end

