-- ==== Sys2Proof/Machine/Alu.lean ====
section
/-! DEFINITION. Register loads, ALU and random (42_alu.md R93 to R104). None touches memory and none can fault. -/

namespace Sys2Proof.Machine

/-- LD Vx, nn (R93). -/
def execLdImm (x : Nibble) (nn : Byte) (s : State) : Result := .next (s.setV x nn)

/-- ADD Vx, nn (R94): modulo 256, no flag. -/
def execAddImm (x : Nibble) (nn : Byte) (s : State) : Result := .next (s.setV x (s.getV x + nn))

/-- LD Vx, Vy (R95). -/
def execLdReg (x y : Nibble) (s : State) : Result := .next (s.setV x (s.getV y))

/-- OR Vx, Vy (R96): no flag (D9). -/
def execOr (x y : Nibble) (s : State) : Result := .next (s.setV x (s.getV x ||| s.getV y))

/-- AND Vx, Vy (R97): no flag (D9). -/
def execAnd (x y : Nibble) (s : State) : Result := .next (s.setV x (s.getV x &&& s.getV y))

/-- XOR Vx, Vy (R98): no flag (D9). -/
def execXor (x y : Nibble) (s : State) : Result := .next (s.setV x (s.getV x ^^^ s.getV y))

/-- ADD Vx, Vy (R99). -/
def execAddReg (x y : Nibble) (s : State) : Result :=
  .next (s.writeWithFlag x (s.getV x + s.getV y) (carryFlag (s.getV x) (s.getV y)))

/-- SUB Vx, Vy (R100), V[X] - V[Y]. -/
def execSub (x y : Nibble) (s : State) : Result :=
  .next (s.writeWithFlag x (s.getV x - s.getV y) (noBorrowFlag (s.getV x) (s.getV y)))

/-- SHR Vx, Vy (R101): V[X] in place, Y not used. -/
def execShr (x : Nibble) (s : State) : Result :=
  .next (s.writeWithFlag x (s.getV x >>> 1) (lowBitFlag (s.getV x)))

/-- SUBN Vx, Vy (R102), V[Y] - V[X]. -/
def execSubn (x y : Nibble) (s : State) : Result :=
  .next (s.writeWithFlag x (s.getV y - s.getV x) (noBorrowFlag (s.getV y) (s.getV x)))

/-- SHL Vx, Vy (R103): V[X] in place, low 8 bits kept, Y not used. -/
def execShl (x : Nibble) (s : State) : Result :=
  .next (s.writeWithFlag x (s.getV x <<< 1) (highBitFlag (s.getV x)))

/-- RND Vx, nn (R104): the cycle's random byte, masked. -/
def execRnd (x : Nibble) (nn : Byte) (s : State) : Result := .next (s.setV x (s.rndByte &&& nn))

end Sys2Proof.Machine
end

