-- ==== Sys2Proof/Machine/ControlFlow.lean ====
section
/-! DEFINITION. Control transfer and skips (41_control_flow.md R85 to R92). Every meaning begins with pc = A + 2 (R80). -/

namespace Sys2Proof.Machine

/-- RET (R85). -/
def execRet (s : State) : Result :=
  match s.pop with
  | none => .next (s.raiseFault .ret .stackUnderflow)
  | some (w, t) => .next (t.setPc w)

/-- JP nnn (R86). -/
def execJp (nnn : Addr) (s : State) : Result := .next (s.setPc (zext16 nnn))

/-- CALL nnn (R87): the pc pushed is A + 2. -/
def execCall (nnn : Addr) (s : State) : Result :=
  match s.push s.pc with
  | none => .next (s.raiseFault (.call nnn) .stackOverflow)
  | some t => .next (t.setPc (zext16 nnn))

/-- SE Vx, nn (R88). -/
def execSeImm (x : Nibble) (nn : Byte) (s : State) : Result := .next (s.skipIf (s.getV x == nn))

/-- SNE Vx, nn (R89). -/
def execSneImm (x : Nibble) (nn : Byte) (s : State) : Result := .next (s.skipIf (s.getV x != nn))

/-- SE Vx, Vy (R90). -/
def execSeReg (x y : Nibble) (s : State) : Result := .next (s.skipIf (s.getV x == s.getV y))

/-- SNE Vx, Vy (R91). -/
def execSneReg (x y : Nibble) (s : State) : Result := .next (s.skipIf (s.getV x != s.getV y))

/-- JP V0, nnn (R92): the exact sum, at most 0x10FE, so 16 bits hold it. -/
def execJpV0 (nnn : Addr) (s : State) : Result := .next (s.setPc (zext16 nnn + zext16Byte (s.getV 0#4)))

end Sys2Proof.Machine
end

