-- ==== Sys2Proof/Machine/Display.lean ====
section
/-! DEFINITION. Framebuffer instructions and the collision unit (44_display.md R113 to R117). -/

namespace Sys2Proof.Machine

/-- What a draw works on: the framebuffer and the collision unit's `hit` (R115, R116). -/
abbrev Canvas := Framebuffer × Bool

/-- Column c of a sprite byte (R114): bit 7 - c under msb_left; bit c under lsb_left (DESIGN CHOICE, log 13). -/
def spriteBit (p : Params) (b : Byte) (c : Nat) : Bool :=
  match p.spriteBitOrder with
  | .msbLeft => b.getLsbD (7 - c)
  | .lsbLeft => b.getLsbD c

/-- Toggle one cell: `if fb[y][x] = 1: hit <- 1`, then `fb[y][x] <- fb[y][x] ^ 1` (R115). -/
def toggleCell (k : Canvas) (y : Fin 32) (x : Fin 64) : Canvas :=
  (setCell k.1 y x (!cell k.1 y x), k.2 || cell k.1 y x)

/-- The column of the screen a sprite column lands on: `(x0 + c) mod 64` (R114). -/
def screenColumn (x0 : Fin 64) (c : Nat) : Fin 64 := Fin.ofNat 64 (x0.val + c)

/-- The row of the screen sprite row r lands on, none where it is not drawn (R114, P_DRAW_VERTICAL). -/
def screenRow (p : Params) (y0 : Fin 32) (r : Nat) : Option (Fin 32) :=
  if h : y0.val + r < 32 then some ⟨y0.val + r, h⟩
  else match p.drawVertical with
    | .clip => none
    | .wrap => some (Fin.ofNat 32 (y0.val + r))

/-- One sprite column of the inner loop of R115. -/
def drawColumn (p : Params) (b : Byte) (x0 : Fin 64) (y : Fin 32) (k : Canvas) (c : Nat) : Canvas :=
  if spriteBit p b c then toggleCell k y (screenColumn x0 c) else k

/-- The inner loop of R115, `for c in 0 .. 7`. -/
def drawRow (p : Params) (b : Byte) (x0 : Fin 64) (y : Fin 32) (k : Canvas) : Canvas :=
  (List.range 8).foldl (drawColumn p b x0 y) k

/-- The outer loop of R115 from sprite row r on; a row that is not drawn is passed over. -/
def drawRows (p : Params) (x0 : Fin 64) (y0 : Fin 32) : Nat → List Byte → Canvas → Canvas
  | _, [], k => k
  | r, b :: bs, k =>
    match screenRow p y0 r with
    | none => drawRows p x0 y0 (r + 1) bs k
    | some y => drawRows p x0 y0 (r + 1) bs (drawRow p b x0 y k)

/-- CLS (R113): VF is not written. -/
def execCls (s : State) : Result := .next (s.showFb clearFb)

/-- What a draw leaves, its range check passed (R115): coordinates from V before the flag is written, VF written last. -/
def State.draw (s : State) (x y n : Nibble) : State :=
  let k := drawRows s.params (spriteX (s.getV x)) (spriteY (s.getV y)) 0 (s.readBytes s.I.toNat n.toNat) (s.fb, false)
  (s.showFb k.1).setV VF (flagByte k.2)

/-- DRW Vx, Vy, n (R115). -/
def execDrw (x y n : Nibble) (s : State) : Result :=
  guarded s (.drw x y n) (checkRange s.I n.toNat) (s.draw x y n)

end Sys2Proof.Machine
end

