-- ==== Sys2Proof/Machine/IndexMemory.lean ====
section
/-! DEFINITION. Index register and memory-block instructions (43_index_memory.md R107 to R112). Checks stand before every write. -/

namespace Sys2Proof.Machine

/-- LD I, nnn (R107). -/
def execLdI (nnn : Addr) (s : State) : Result := .next (s.setI (zext16 nnn))

/-- ADD I, Vx (R108): wraps modulo 2^16, flag from the exact sum. -/
def execAddIVx (x : Nibble) (s : State) : Result :=
  .next (s.writeIWithFlag (s.I + zext16Byte (s.getV x)) (indexFlag s.I (s.getV x)))

/-- LD F, Vx (R109): the low nibble selects the glyph (90_conflicts.md C11). -/
def execLdFVx (x : Nibble) (s : State) : Result := .next (s.setI (glyphAddress s.params (lowNibble (s.getV x))))

/-- LD B, Vx (R110). -/
def execLdBVx (x : Nibble) (s : State) : Result :=
  guarded s (.ldBVx x) (checkStore s.params s.I 3) (s.storeBytes s.I.toNat (bcdDigits (s.getV x)))

/-- LD [I], Vx (R111): V[0]..V[X], inclusive; I unchanged. -/
def execStoreRegs (x : Nibble) (s : State) : Result :=
  guarded s (.storeRegs x) (checkStore s.params s.I (x.toNat + 1)) (s.storeBytes s.I.toNat (s.firstVs (x.toNat + 1)))

/-- LD Vx, [I] (R112): V[0]..V[X], inclusive; I unchanged; reads below 0x200 are always allowed. -/
def execLoadRegs (x : Nibble) (s : State) : Result :=
  guarded s (.loadRegs x) (checkRange s.I (x.toNat + 1)) (s.setVs 0 (s.readBytes s.I.toNat (x.toNat + 1)))

end Sys2Proof.Machine
end

