-- ==== Sys2Proof/Machine/InputTimers.lean ====
section
/-! DEFINITION. Key and timer instructions (45_input_timers.md R118 to R124) and the poll of a key wait (R122). -/

namespace Sys2Proof.Machine

/-- SKP Vx (R118): the key index is the low nibble (D7). -/
def execSkp (x : Nibble) (s : State) : Result := .next (s.skipIf (keyPressed s.env.keys (lowNibble (s.getV x))))

/-- SKNP Vx (R119): the key index is the low nibble (D7). -/
def execSknp (x : Nibble) (s : State) : Result := .next (s.skipIf (!keyPressed s.env.keys (lowNibble (s.getV x))))

/-- LD Vx, DT (R120). -/
def execLdVxDt (x : Nibble) (s : State) : Result := .next (s.setV x s.dt)

/-- LD Vx, K (R121): begin the wait; pc stays A + 2 and V[X] is not yet written. -/
def execLdVxK (x : Nibble) (s : State) : Result := .next ((s.setKlatch s.env.keys).setStatus (.awaitingKey x))

/-- LD DT, Vx (R123). -/
def execLdDtVx (x : Nibble) (s : State) : Result := .next (s.setDt (s.getV x))

/-- LD ST, Vx (R124). -/
def execLdStVx (x : Nibble) (s : State) : Result := .next (s.setSt (s.getV x))

/-- The keys that can end a wait (R122, P_KEY_WAIT_TRIGGER). -/
def newKeys (p : Params) (keys klatch : Word) : Word :=
  match p.keyWaitTrigger with
  | .edge => keys &&& ~~~klatch
  | .level => keys

/-- The least index with `new[k] = 1` (R122; D6); none where `new = 0`. -/
def lowestKey (new : Word) : Option Nibble :=
  ((List.range 16).find? fun k => new.getLsbD k).map (BitVec.ofNat 4)

/-- `WaitPoll(x, keys)` (R122): no fetch, pc unchanged. -/
def State.waitPoll (s : State) (x : Nibble) : State :=
  match lowestKey (newKeys s.params s.env.keys s.klatch) with
  | none => s.setKlatch s.env.keys
  | some k => ((s.setV x (nibbleByte k)).setKlatch s.env.keys).setStatus .running

end Sys2Proof.Machine
end

