-- ==== Sys2Proof/Machine/Cycle.lean ====
section
/-! DEFINITION. One cycle (40_cycle.md R71 to R83) and the other events (00_scope.md R12): tick, reset, load. -/

namespace Sys2Proof.Machine

namespace State

/-! ### Sampling the inputs of a cycle (10_state.md R25, R31) -/

/-- Take the event queue's head off. -/
def dropEvent (s : State) : State := { s with env := { s.env with events := s.env.events.tail } }

/-- The start of a Cycle call the environment queued with its inputs. -/
def samplePorts (s : State) (keys : Word) (rnd : Byte) : State :=
  { s with
    displayUpdate := false
    env := { s.env with keys := keys, rnd := some rnd, cycleNo := s.env.cycleNo + 1, started := true } }

/-- The start of a Cycle call when nothing is queued: the keys held as they were, a free random byte (logs 5, 6). -/
def sampleHeld (s : State) : State :=
  { s with
    displayUpdate := false
    env := { s.env with rnd := none, cycleNo := s.env.cycleNo + 1, started := true } }

/-! ### Fetch (R75, R76) -/

/-- The big-endian word at pc (20_memory.md R43). -/
def fetchWord (s : State) : Word := wordOfBytes (s.readByte s.pc.toNat) (s.readByte (s.pc.toNat + 1))

end State

/-- Fetch bounds, fetch, decode, advance, execute (R75 to R80), from Running with pc below 0x1000. A fault before execute is taken
at A = pc, with no word where none was fetched (R75, R79). -/
def fetchAndRun (s : State) : Result :=
  match checkRange s.pc 2 with
  | some c => .next (s.takeFault c s.pc none)
  | none =>
    match decode s.fetchWord with
    | .failure w => .next (s.takeFault .decodeError s.pc (some w))
    | .op i => exec i s.advance

/-- The cycle of R83, its inputs sampled: status dispatch (R72, R73), halt check (R74), then the instruction. -/
def cycle (s : State) : Result :=
  match s.status with
  | .halted => .next s
  | .faulted _ => .next s
  | .awaitingKey x => .next (s.waitPoll x)
  | .running => if s.pc.toNat ≥ Config.memSize then .next (s.setStatus .halted) else fetchAndRun s

/-! ### Tick (60_exceptions.md R134) -/

/-- `if T > 0: T <- T - 1`. -/
def countDown (t : Byte) : Byte := if t = 0#8 then 0#8 else t - 1

/-- `Tick()`: Halted and Faulted ignore it. -/
def State.tick (s : State) : State :=
  match s.status with
  | .running | .awaitingKey _ => (s.setDt (countDown s.dt)).setSt (countDown s.st)
  | .halted | .faulted _ => s

/-! ### Reset and Load (70_reset_and_hazards.md R144, R149) -/

/-- `Reset()`: every piece of state to its reset value. The parameters and the environment's side are not the CORE's state and
stay, but that no Cycle was called since (log 21). -/
def State.resetEvent (s : State) : State :=
  { State.reset with params := s.params, env := { s.env with started := false } }

/-- The image's bytes into memory from 0x200 on, with the answer Loaded. -/
def State.loadImage (s : State) (image : List Byte) : State :=
  { s.storeBytes Config.programBase image with loadResult := some .loaded }

/-- `Load(image)` (R149, P_LOADER_OVERSIZE). -/
def State.load (s : State) (image : List Byte) : State :=
  if image.length ≤ Config.maxImage then s.loadImage image
  else match s.params.loaderOversize with
    | .reject => { s with loadResult := some .rejected }
    | .truncate => s.loadImage (image.take Config.maxImage)

/-- A Load event, refused by name after the first Cycle since a Reset (R148; log 8). -/
def loadEvent (s : State) (image : List Byte) : Result :=
  if s.env.started then .refused .loadDuringRun else .next (s.load image)

/-! ### The next event -/

/-- Run the oldest queued event; with nothing queued the environment calls Cycle (log 4). -/
def runEvent (s : State) : Result :=
  match s.env.events with
  | [] => cycle s.sampleHeld
  | .cycle keys rnd :: _ => cycle (s.dropEvent.samplePorts keys rnd)
  | .tick :: _ => .next s.dropEvent.tick
  | .reset :: _ => .next s.dropEvent.resetEvent
  | .load image :: _ => loadEvent s.dropEvent image

/-! ### Placing an instruction for the host -/

/-- A word's two bytes stored at pc, the state made one whose next step is a Cycle that fetches them: Running, pc at a place where
two bytes fit (else the reset pc), and no other event before it (log 9). -/
def State.placeWord (s : State) (w : Word) : State :=
  let pc := if s.pc.toNat ≤ 0xFFE then s.pc else BitVec.ofNat 16 Config.programBase
  let events := match s.env.events with
    | .cycle keys rnd :: rest => Event.cycle keys rnd :: rest
    | _ => []
  ({ s with pc := pc, status := .running, env := { s.env with events := events } }).storeBytes pc.toNat
    [highByte w, lowByte w]

end Sys2Proof.Machine
end

