-- ==== Sys2Proof/Machine/Step.lean ====
section
/-! DEFINITION. The step: the next event of the environment, run whole (00_scope.md R12). -/

namespace Sys2Proof.Machine

/-- One event: a Cycle, a Tick, a Reset or a Load. -/
def step (s : State) : Host.Outcome State Fault Refusal := runEvent s

/-- `s` with a table word stored where step fetches its next instruction, so that the next step runs exactly it. -/
def State.withFetchWord (s : State) (nbits w : Nat) : State := s.placeWord (tableWord nbits w)

end Sys2Proof.Machine
end

