-- ==== Sys2Proof/WellFormed.lean ====
section
/-! DEFINITION. What is well formed.

Instructions: 30_encoding.md R58 ("Every value is valid, so no register operand can be illegal") together with operand types that
are exactly as wide as their fields leaves no ill-formed instruction term; which WORDS name an instruction is Decode's subject.
What can be ill formed is a parameter record, whose font must lie in the region the address map reserves for it. -/

namespace Sys2Proof

/-- Every instruction term has an encoding (R58): the operand types carry the bounds. -/
abbrev Instr.wellFormed (_ : Instr) : Bool := true

/-- The font's 80 bytes fit in the reserved region 0x000..0x1FF (20_memory.md R40, R51: "reserved for the interpreter and the
font, with the font at P_FONT_BASE"). DEDUCED (log 14). -/
def Params.wellFormed (p : Params) : Bool := p.fontBase.toNat + 80 ≤ Config.programBase

end Sys2Proof
end

