-- ==== Sys2Proof/Safety.lean ====
section
/-! DEFINITION. The terms in which claims are made: which parts of the state a transition leaves alone, which states are legal,
what a fault record must say, and which cells a sprite covers. -/

namespace Sys2Proof.Machine

/-! ### Frames -/

/-- The pieces of the state, down to one register, one stack entry, one byte, one cell. -/
inductive Piece where
  | v (x : Nibble)
  | I
  | pc
  | sp
  | stackEntry (j : Fin 16)
  | dt
  | st
  | byte (a : Nat)
  | cell (y : Fin 32) (x : Fin 64)
  | status
  | klatch
  | displayUpdate
  | loadResult
  | params
  | env
  deriving DecidableEq, Repr

/-- A piece reads the same in two states. -/
def Piece.Same : Piece → State → State → Prop
  | .v x, s, t => t.getV x = s.getV x
  | .I, s, t => t.I = s.I
  | .pc, s, t => t.pc = s.pc
  | .sp, s, t => t.sp = s.sp
  | .stackEntry j, s, t => t.stack[j] = s.stack[j]
  | .dt, s, t => t.dt = s.dt
  | .st, s, t => t.st = s.st
  | .byte a, s, t => t.readByte a = s.readByte a
  | .cell y x, s, t => Machine.cell t.fb y x = Machine.cell s.fb y x
  | .status, s, t => t.status = s.status
  | .klatch, s, t => t.klatch = s.klatch
  | .displayUpdate, s, t => t.displayUpdate = s.displayUpdate
  | .loadResult, s, t => t.loadResult = s.loadResult
  | .params, s, t => t.params = s.params
  | .env, s, t => t.env = s.env

/-- From s to t, only the pieces P names may differ. -/
def ChangesOnlyWhere (P : Piece → Prop) (s t : State) : Prop := ∀ p, ¬P p → p.Same s t

/-- From s to t, only the pieces listed may differ. -/
abbrev ChangesOnly (ps : List Piece) (s t : State) : Prop := ChangesOnlyWhere (· ∈ ps) s t

/-! ### Events -/

/-- The next event is a Cycle call, and c is the state it begins in: inputs sampled, nothing run (R31). -/
def State.BeginsCycle (s c : State) : Prop :=
  (s.env.events = [] ∧ c = s.sampleHeld) ∨
    ∃ keys rnd rest, s.env.events = .cycle keys rnd :: rest ∧ c = s.dropEvent.samplePorts keys rnd

/-- The status is terminal (10_state.md R26). -/
def Status.Terminal : Status → Prop
  | .halted | .faulted _ => True
  | .running | .awaitingKey _ => False

/-- A word stands at pc that can be fetched: Running, two bytes there (40_cycle.md R74, R75). -/
def State.Fetches (s : State) : Prop := s.status = .running ∧ s.pc.toNat ≤ 0xFFE

/-! ### Legal states -/

/-- What the rules keep (10_state.md R17, R19, R26, R30; 20_memory.md R39): memory in canonical form, the pc at most 0x10FE, a
stack that holds no return address above 0x1000, and Halted only with the pc past memory. -/
structure State.Inv (s : State) : Prop where
  memory : Memory.wf s.params s.mem
  pc     : s.pc.toNat ≤ 0x10FE
  stack  : ∀ j : Fin 16, s.stack[j].toNat ≤ 0x1000
  halted : s.status = .halted → 0x1000 ≤ s.pc.toNat

/-- How many bytes at I an instruction accesses, none where it touches no memory (20_memory.md R45, 60_exceptions.md R128). -/
def accessLength : Instr → Option Nat
  | .drw _ _ n => some n.toNat
  | .ldBVx _ => some 3
  | .storeRegs x | .loadRegs x => some (x.toNat + 1)
  | _ => none

/-- The instructions that store to memory (R45), the ones R47 checks below 0x200. -/
def Stores : Instr → Prop
  | .ldBVx _ | .storeRegs _ => True
  | _ => False

/-- Instruction i's check on its bytes at I fails: the range passes 0xFFF, or it stores below 0x200 under fault (R46, R47, R128).
An access of no byte passes every check. -/
def State.RangeFails (s : State) (i : Instr) (len : Nat) : Prop :=
  accessLength i = some len ∧ 1 ≤ len ∧
    (0x1000 < s.I.toNat + len ∨ Stores i ∧ s.params.lowMemoryWrites = .fault ∧ s.I.toNat < 0x200)

/-- What a fault record must say of the state it stands in (10_state.md R28, 60_exceptions.md R125): the record names the
instruction at pc, and the cause is true of the state. -/
def State.RecordFits (s : State) (f : FaultRecord) : Prop :=
  f.fpc = s.pc ∧
    match f.cause with
    | .decodeError => f.word = some s.fetchWord ∧ decode s.fetchWord = .failure s.fetchWord
    | .stackOverflow => f.word = some s.fetchWord ∧ (∃ nnn, decode s.fetchWord = .op (.call nnn)) ∧ s.sp = 16
    | .stackUnderflow => f.word = some s.fetchWord ∧ decode s.fetchWord = .op .ret ∧ s.sp = 0
    | .memoryBoundsError base len =>
      (f.word = none ∧ s.pc = 0xFFF#16 ∧ base = 0xFFF#16 ∧ len = 2) ∨
      (f.word = some s.fetchWord ∧ base = s.I ∧ ∃ i, decode s.fetchWord = .op i ∧ s.RangeFails i len)

/-- A Faulted state's record fits it, and before the first Cycle since a Reset the status is Running (R36, R129, R148). -/
structure State.FaultInv (s : State) : Prop where
  fresh  : s.env.started = false → s.status = .running
  record : ∀ f, s.status = .faulted f → s.RecordFits f

/-! ### Sprites (44_display.md R114) -/

/-- Sprite pixel (r, c), drawn from the top-left place (x0, y0), lands at row y, column x: horizontally wrapped, vertically
clipped or wrapped by P_DRAW_VERTICAL. -/
def LandsAt (p : Params) (x0 y0 r c : Nat) (y : Fin 32) (x : Fin 64) : Prop :=
  x.val = (x0 + c) % 64 ∧ (y.val = y0 + r ∨ p.drawVertical = .wrap ∧ 32 ≤ y0 + r ∧ y.val = (y0 + r) % 32)

/-- Column c of a sprite byte is set, by the bit's number: bit 7 - c under msb_left (R114), bit c under lsb_left (DESIGN
CHOICE, log 13). -/
def SetsColumn (p : Params) (b : Byte) (c : Nat) : Prop :=
  (p.spriteBitOrder = .msbLeft → b.getLsbD (7 - c) = true) ∧ (p.spriteBitOrder = .lsbLeft → b.getLsbD c = true)

/-- DXYN in state s toggles the cell at row y, column x: a set bit of one of the N bytes at I lands there. -/
def State.Covers (s : State) (vx vy n : Nibble) (y : Fin 32) (x : Fin 64) : Prop :=
  ∃ r c, r < n.toNat ∧ c < 8 ∧ SetsColumn s.params (s.readByte (s.I.toNat + r)) c ∧
    LandsAt s.params ((s.getV vx).toNat % 64) ((s.getV vy).toNat % 32) r c y x

end Sys2Proof.Machine
end

