-- ==== Sys2Proof/Certificates/Slice0/Obligations.lean ====
section
/-! DEFINITION. The statements for the provers. Frames are `ChangesOnly`: every piece of the state not listed reads as before. A
statement whose docstring says "the spec's own decision D<n>" or names a log entry rests on a choice, not on the source's words. -/

namespace Sys2Proof.Claims

open Sys2Proof.Machine

/-! ### The fields of a word by arithmetic on its value (30_encoding.md R57), apart from the decoder's own -/

/-- w[15:12] as a number. -/
def family (w : Word) : Nat := w.toNat / 0x1000
/-- X. -/
def X (w : Word) : Nibble := BitVec.ofNat 4 (w.toNat / 0x100)
/-- Y. -/
def Y (w : Word) : Nibble := BitVec.ofNat 4 (w.toNat / 0x10)
/-- N. -/
def N (w : Word) : Nibble := BitVec.ofNat 4 w.toNat
/-- NN. -/
def NN (w : Word) : Byte := BitVec.ofNat 8 w.toNat
/-- NNN. -/
def NNN (w : Word) : Addr := BitVec.ofNat 12 w.toNat

/-- The encodings that name no instruction, as R67 lists them. -/
abbrev Reserved (w : Nat) : Prop :=
  (w ≤ 0x0FFF ∧ w ≠ 0x00E0 ∧ w ≠ 0x00EE) ∨
  ((w / 0x1000 = 5 ∨ w / 0x1000 = 9) ∧ w % 0x10 ≠ 0) ∨
  (w / 0x1000 = 8 ∧ w % 0x10 ∈ [0x8, 0x9, 0xA, 0xB, 0xC, 0xD, 0xF]) ∨
  (w / 0x1000 = 0xE ∧ w % 0x100 ∉ [0x9E, 0xA1]) ∨
  (w / 0x1000 = 0xF ∧ w % 0x100 ∉ [0x07, 0x0A, 0x15, 0x18, 0x1E, 0x29, 0x33, 0x55, 0x65])

/-! ### Shapes of statements -/

/-- `i` completes in `s` in a state of which P holds. -/
def Completes (i : Instr) (s : State) (P : State → Prop) : Prop := ∃ t, exec i s = .next t ∧ P t

/-- A skip (40_cycle.md R78): 2 more on the advanced pc exactly where c holds, nothing else written. -/
def SkipsWhen (i : Instr) (s : State) (c : Prop) : Prop :=
  Completes i s fun t => (c → t.pc = s.pc + 2) ∧ (¬c → t.pc = s.pc) ∧ ChangesOnly [.pc] s t

/-- Taking a fault from execute (40_cycle.md R81, 60_exceptions.md R129): the record, pc back at the instruction, no display
update, nothing else written. -/
def Faults (i : Instr) (s : State) (c : Cause) : Prop :=
  Completes i s fun t => t.status = .faulted ⟨c, s.pc - 2, some (encode i)⟩ ∧ t.pc = s.pc - 2 ∧ t.displayUpdate = false ∧
    ChangesOnly [.status, .pc, .displayUpdate] s t

/-- WriteWithFlag(x, r, f) and nothing else (10_state.md R15): for x = VF the write that P_FLAG_ORDER puts last stays. -/
def WritesWithFlag (i : Instr) (s : State) (x : Nibble) (r f : Nat) : Prop :=
  Completes i s fun t =>
    (x ≠ VF → (t.getV x).toNat = r ∧ (t.getV VF).toNat = f) ∧
    (x = VF → s.params.flagOrder = .flagLast → (t.getV VF).toNat = f) ∧
    (x = VF → s.params.flagOrder = .dataLast → (t.getV VF).toNat = r) ∧
    ChangesOnly [.v x, .v VF] s t

/-- `bool(c)` (00_scope.md R8). -/
abbrev bitOf (c : Prop) [Decidable c] : Nat := if c then 1 else 0

/-- The answer of exec with its next state rewritten. -/
def onNext (f : State → State) : Result → Result
  | .next t => .next (f t)
  | .fault r => .fault r
  | .refused r => .refused r

/-- The instructions that set pc themselves (R84). -/
def Jumps : Instr → Prop
  | .ret | .jp _ | .call _ | .jpV0 _ => True
  | _ => False

/-- The skip instructions (R84, R78). -/
def Skips : Instr → Prop
  | .seImm _ _ | .sneImm _ _ | .seReg _ _ | .sneReg _ _ | .skp _ | .sknp _ => True
  | _ => False

/-- 00E0 and DXYN, the instructions that tell the display (10_state.md R31). -/
def Draws : Instr → Prop
  | .cls | .drw _ _ _ => True
  | _ => False

/-- The registers an instruction may write, as data or as flag (10_state.md R13, R14). FX0A writes its register later, in the poll
that ends the wait. -/
def Writes : Instr → Nibble → Prop
  | .ldImm x _, r | .addImm x _, r | .ldReg x _, r | .or x _, r | .and x _, r | .xor x _, r | .rnd x _, r | .ldVxDt x, r => r = x
  | .addReg x _, r | .sub x _, r | .shr x _, r | .subn x _, r | .shl x _, r => r = x ∨ r = VF
  | .addIVx _, r | .drw _ _ _, r => r = VF
  | .loadRegs x, r => r.toNat ≤ x.toNat
  | _, _ => False

/-- The next event is a Cycle call that executes an instruction of which P holds. -/
def Executes (s : State) (P : Instr → Prop) : Prop :=
  (∃ c, s.BeginsCycle c) ∧ s.Fetches ∧ ∃ i, decode s.fetchWord = .op i ∧ P i

/-- The table of 20_memory.md R42 as it is printed there, one glyph a row. -/
def fontTable : List (List Byte) := [
  [0xF0, 0x90, 0x90, 0x90, 0xF0], [0x20, 0x60, 0x20, 0x20, 0x70], [0xF0, 0x10, 0xF0, 0x80, 0xF0],
  [0xF0, 0x10, 0xF0, 0x10, 0xF0], [0x90, 0x90, 0xF0, 0x10, 0x10], [0xF0, 0x80, 0xF0, 0x10, 0xF0],
  [0xF0, 0x80, 0xF0, 0x90, 0xF0], [0xF0, 0x10, 0x20, 0x40, 0x40], [0xF0, 0x90, 0xF0, 0x90, 0xF0],
  [0xF0, 0x90, 0xF0, 0x10, 0xF0], [0xF0, 0x90, 0xF0, 0x90, 0x90], [0xE0, 0x90, 0xE0, 0x90, 0xE0],
  [0xF0, 0x80, 0x80, 0x80, 0xF0], [0xE0, 0x90, 0x90, 0x90, 0xE0], [0xF0, 0x80, 0xF0, 0x80, 0xF0],
  [0xF0, 0x80, 0xF0, 0x80, 0x80]]

/-- The next event is a Reset. -/
def Resets (s : State) : Prop := ∃ rest, s.env.events = .reset :: rest

end Sys2Proof.Claims

open Sys2Proof Sys2Proof.Machine Sys2Proof.Claims

/-- Words written out from the spec's patterns decode to the instructions they stand for. Rules R60, R62, R64,
95_test_vectors.md section 2. -/
def Obligations.DecodesWordsWrittenOut : Prop :=
  decode 0x00E0#16 = .op .cls ∧ decode 0x1FFF#16 = .op (.jp 0xFFF#12) ∧ decode 0x5AB0#16 = .op (.seReg 0xA#4 0xB#4) ∧
  decode 0x8AB6#16 = .op (.shr 0xA#4 0xB#4) ∧ decode 0xB123#16 = .op (.jpV0 0x123#12) ∧
  decode 0xDABC#16 = .op (.drw 0xA#4 0xB#4 0xC#4) ∧ decode 0xEFA1#16 = .op (.sknp 0xF#4) ∧
  decode 0xF155#16 = .op (.storeRegs 0x1#4) ∧ decode 0x0000#16 = .failure 0x0000#16 ∧
  decode 0x900F#16 = .failure 0x900F#16 ∧ decode 0xF0FF#16 = .failure 0xF0FF#16

/-- Every word decodes as the family tables say, with its operands taken by arithmetic from its value. Rules R61, R62, R63,
R64, R65, R66. For families 0, 5, 9 and E that the other words fail is the spec's own decision D1. -/
def Obligations.DecoderFollowsTheFamilyTables : Prop :=
  ∀ w : Word,
    (family w = 0x0 → decode w = if w = 0x00E0#16 then .op .cls else if w = 0x00EE#16 then .op .ret else .failure w) ∧
    (family w = 0x1 → decode w = .op (.jp (NNN w))) ∧
    (family w = 0x2 → decode w = .op (.call (NNN w))) ∧
    (family w = 0x3 → decode w = .op (.seImm (X w) (NN w))) ∧
    (family w = 0x4 → decode w = .op (.sneImm (X w) (NN w))) ∧
    (family w = 0x5 → decode w = if w.toNat % 0x10 = 0 then .op (.seReg (X w) (Y w)) else .failure w) ∧
    (family w = 0x6 → decode w = .op (.ldImm (X w) (NN w))) ∧
    (family w = 0x7 → decode w = .op (.addImm (X w) (NN w))) ∧
    (family w = 0x8 → w.toNat % 0x10 = 0x0 → decode w = .op (.ldReg (X w) (Y w))) ∧
    (family w = 0x8 → w.toNat % 0x10 = 0x1 → decode w = .op (.or (X w) (Y w))) ∧
    (family w = 0x8 → w.toNat % 0x10 = 0x2 → decode w = .op (.and (X w) (Y w))) ∧
    (family w = 0x8 → w.toNat % 0x10 = 0x3 → decode w = .op (.xor (X w) (Y w))) ∧
    (family w = 0x8 → w.toNat % 0x10 = 0x4 → decode w = .op (.addReg (X w) (Y w))) ∧
    (family w = 0x8 → w.toNat % 0x10 = 0x5 → decode w = .op (.sub (X w) (Y w))) ∧
    (family w = 0x8 → w.toNat % 0x10 = 0x6 → decode w = .op (.shr (X w) (Y w))) ∧
    (family w = 0x8 → w.toNat % 0x10 = 0x7 → decode w = .op (.subn (X w) (Y w))) ∧
    (family w = 0x8 → w.toNat % 0x10 = 0xE → decode w = .op (.shl (X w) (Y w))) ∧
    (family w = 0x8 → w.toNat % 0x10 ∈ [0x8, 0x9, 0xA, 0xB, 0xC, 0xD, 0xF] → decode w = .failure w) ∧
    (family w = 0x9 → decode w = if w.toNat % 0x10 = 0 then .op (.sneReg (X w) (Y w)) else .failure w) ∧
    (family w = 0xA → decode w = .op (.ldI (NNN w))) ∧
    (family w = 0xB → decode w = .op (.jpV0 (NNN w))) ∧
    (family w = 0xC → decode w = .op (.rnd (X w) (NN w))) ∧
    (family w = 0xD → decode w = .op (.drw (X w) (Y w) (N w))) ∧
    (family w = 0xE → decode w =
      if w.toNat % 0x100 = 0x9E then .op (.skp (X w))
      else if w.toNat % 0x100 = 0xA1 then .op (.sknp (X w)) else .failure w) ∧
    (family w = 0xF → w.toNat % 0x100 = 0x07 → decode w = .op (.ldVxDt (X w))) ∧
    (family w = 0xF → w.toNat % 0x100 = 0x0A → decode w = .op (.ldVxK (X w))) ∧
    (family w = 0xF → w.toNat % 0x100 = 0x15 → decode w = .op (.ldDtVx (X w))) ∧
    (family w = 0xF → w.toNat % 0x100 = 0x18 → decode w = .op (.ldStVx (X w))) ∧
    (family w = 0xF → w.toNat % 0x100 = 0x1E → decode w = .op (.addIVx (X w))) ∧
    (family w = 0xF → w.toNat % 0x100 = 0x29 → decode w = .op (.ldFVx (X w))) ∧
    (family w = 0xF → w.toNat % 0x100 = 0x33 → decode w = .op (.ldBVx (X w))) ∧
    (family w = 0xF → w.toNat % 0x100 = 0x55 → decode w = .op (.storeRegs (X w))) ∧
    (family w = 0xF → w.toNat % 0x100 = 0x65 → decode w = .op (.loadRegs (X w))) ∧
    (family w = 0xF → w.toNat % 0x100 ∉ [0x07, 0x0A, 0x15, 0x18, 0x1E, 0x29, 0x33, 0x55, 0x65] → decode w = .failure w)

/-- Decoding the encoding of any instruction gives it back, with every operand at every value. Rules R59, R60, R61. -/
def Obligations.DecodeOfEncodeIsTheInstruction : Prop :=
  ∀ i : Instr, i.wellFormed = true → decode (encode i) = .op i

/-- A word that decodes to an instruction is that instruction's encoding. Rules R60, R67. -/
def Obligations.EncodeOfDecodedIsTheWord : Prop :=
  ∀ (w : Word) (i : Instr), decode w = .op i → encode i = w

/-- The decoder fails on exactly the words R67 lists, with the word, and decodes every other word. Rules R59, R67. That
undocumented words of families 0, 5, 9 and E fail is the spec's own decision D1. -/
def Obligations.ReservedWordsAreExactlyTheDecodeFailures : Prop :=
  ∀ w : Word, (Reserved w.toNat → decode w = .failure w) ∧ (¬Reserved w.toNat → ∃ i, decode w = .op i)

/-- A step whose event is a Cycle runs the instruction that the two bytes at pc decode to. Rules R43, R76, R77, R79, R80. The
queue and the sampling are the model's (logs 4, 5, 6). -/
def Obligations.StepRunsTheDecodedInstruction : Prop :=
  ∀ (s c : State) (i : Instr), s.BeginsCycle c → s.Fetches → decode s.fetchWord = .op i → i.wellFormed = true →
    step s = exec i c.advance ∧
    s.fetchWord.toNat = 0x100 * (s.readByte s.pc.toNat).toNat + (s.readByte (s.pc.toNat + 1)).toNat ∧
    c.advance.pc.toNat = s.pc.toNat + 2 ∧ c.advance.displayUpdate = false ∧
    c.advance.env.started = true ∧ c.advance.env.cycleNo = s.env.cycleNo + 1 ∧
    (s.env.events = [] → c.env.keys = s.env.keys ∧ c.env.rnd = none ∧ c.env.events = []) ∧
    (∀ keys rnd rest, s.env.events = .cycle keys rnd :: rest → c.env.keys = keys ∧ c.env.rnd = some rnd ∧ c.env.events = rest) ∧
    ChangesOnly [.pc, .displayUpdate, .env] s c.advance

/-- A fetched word that names no instruction faults with DecodeError and leaves the rest as it was. Rules R79, R81, R126. That
pc is restored is the spec's own decision D2. -/
def Obligations.ReservedWordRaisesDecodeError : Prop :=
  ∀ s c : State, s.BeginsCycle c → s.Fetches → Reserved s.fetchWord.toNat →
    ∃ t, step s = .next t ∧ t.status = .faulted ⟨.decodeError, s.pc, some s.fetchWord⟩ ∧ t.displayUpdate = false ∧
      t.env = c.env ∧ ChangesOnly [.status, .displayUpdate, .env] s t

/-- With no word at pc a Running cycle faults at 0xFFF and halts from 0x1000 on, and changes nothing else. Rules R44, R74,
R75, R128. The fault of a fetch at 0xFFF is the spec's own decision D16, the cycle that reports a halt its D3; that the result
is read from the status is log 17, the sampling of the inputs logs 4, 5 and 6. -/
def Obligations.NoWordAtPcFaultsOrHalts : Prop :=
  ∀ s c : State, s.BeginsCycle c → s.status = .running → 0xFFF ≤ s.pc.toNat →
    ∃ t, step s = .next t ∧
      (s.pc.toNat = 0xFFF →
        t.status = .faulted ⟨.memoryBoundsError 0xFFF#16 2, 0xFFF#16, none⟩ ∧
          t.result = .faulted ⟨.memoryBoundsError 0xFFF#16 2, 0xFFF#16, none⟩) ∧
      (0x1000 ≤ s.pc.toNat → t.status = .halted ∧ t.result = .halted) ∧
      t.displayUpdate = false ∧ t.env = c.env ∧ ChangesOnly [.status, .displayUpdate, .env] s t

/-- A Halted or Faulted machine answers a cycle with its status and changes nothing. Rule R72. That the result is read from
the status is log 17, the sampling of the inputs logs 4, 5 and 6. -/
def Obligations.TerminalStatusIgnoresCycles : Prop :=
  ∀ s c : State, s.BeginsCycle c → s.status.Terminal →
    ∃ t, step s = .next t ∧ t.status = s.status ∧ (s.status = .halted → t.result = .halted) ∧
      (∀ f, s.status = .faulted f → t.result = .faulted f) ∧ t.displayUpdate = false ∧ t.env = c.env ∧
      ChangesOnly [.displayUpdate, .env] s t

/-- A cycle in AwaitingKey(x) polls: no new key keeps waiting, else V[x] gets the least new key code. Rules R73, R122. The
least key is the spec's own decision D6, the edge default its decision D5. -/
def Obligations.KeyWaitPollTakesTheLowestNewKey : Prop :=
  ∀ (s c : State) (x : Nibble), s.BeginsCycle c → s.status = .awaitingKey x →
    ∀ new : Nat → Prop,
      (∀ k, new k ↔ c.env.keys.getLsbD k = true ∧ (s.params.keyWaitTrigger = .edge → s.klatch.getLsbD k = false)) →
      ∃ t, step s = .next t ∧ t.klatch = c.env.keys ∧ t.displayUpdate = false ∧ t.env = c.env ∧ t.result = .running ∧
        ((∀ k, k < 16 → ¬new k) → ChangesOnly [.klatch, .displayUpdate, .env] s t) ∧
        (∀ k, k < 16 → new k → (∀ j, j < k → ¬new j) →
          (t.getV x).toNat = k ∧ t.status = .running ∧
            ChangesOnly [.v x, .status, .klatch, .displayUpdate, .env] s t)

/-- A tick takes 1 from each nonzero timer in Running or AwaitingKey, and nothing in Halted or Faulted. Rule R134. That
terminal statuses ignore ticks is the spec's own decision D18. -/
def Obligations.TickCountsTheTimersDown : Prop :=
  ∀ (s : State) (rest : List Event), s.env.events = .tick :: rest →
    ∃ t, step s = .next t ∧ t.env = { s.env with events := rest } ∧
      (¬s.status.Terminal → t.dt.toNat = s.dt.toNat - 1 ∧ t.st.toNat = s.st.toNat - 1 ∧ ChangesOnly [.dt, .st, .env] s t) ∧
      (s.status.Terminal → ChangesOnly [.env] s t)

/-- n ticks in a row take n from each timer and stop at zero. Rules R123, R124, R134. -/
def Obligations.TicksRunTheTimersOut : Prop :=
  ∀ (n : Nat) (s : State) (rest : List Event), ¬s.status.Terminal → s.env.events = List.replicate n Event.tick ++ rest →
    ∃ t, Host.Core.run Sys2Proof.core n s = .next t ∧ t.dt.toNat = s.dt.toNat - n ∧ t.st.toNat = s.st.toNat - n ∧
      ChangesOnly [.dt, .st, .env] s t

/-- Reset puts every piece of state at its reset value, from any state, and keeps the parameters. Rules R33, R36, R37, R144.
The zeros are the spec's own decision D15 (log 3); that the parameters and the environment's side stay is log 21, loadResult
log 7, started log 8. -/
def Obligations.ResetEventRestoresResetValues : Prop :=
  ∀ (s : State) (rest : List Event), s.env.events = .reset :: rest →
    ∃ t, step s = .next t ∧ t.status = .running ∧ t.pc = 0x200#16 ∧ (∀ x, t.getV x = 0) ∧ t.I = 0 ∧ t.sp = 0 ∧
      (∀ j : Fin 16, t.stack[j] = 0) ∧ t.dt = 0 ∧ t.st = 0 ∧ t.klatch = 0 ∧ (∀ y x, cell t.fb y x = false) ∧
      t.displayUpdate = false ∧ t.soundActive = false ∧ t.params = s.params ∧
      t.loadResult = none ∧ t.env = { s.env with events := rest, started := false } ∧
      (∀ (g : Fin 16) (r : Fin 5), t.readByte (s.params.fontBase.toNat + 5 * g.val + r.val) = s.params.fontData[g][r]) ∧
      (∀ a, a < s.params.fontBase.toNat ∨ s.params.fontBase.toNat + 80 ≤ a → t.readByte a = 0) ∧
      (∀ rest', rest = .reset :: rest' → ∃ u, step t = .next u ∧ ∀ p : Piece, p ≠ .env → p.Same t u)

/-- State.reset holds the values of R36 with the default parameters of R6. Rules R6, R36, R37, R42. The zeros are the spec's
own decision D15 (log 3), the font bytes general knowledge the spec supplies (log 2), as is msb_left (D13); R6's defaults are
the spec's own decisions (log 18). -/
def Obligations.ResetStateIsTheSpecs : Prop :=
  State.reset.status = .running ∧ State.reset.pc = 0x200#16 ∧ (∀ x, State.reset.getV x = 0) ∧ State.reset.I = 0 ∧
  State.reset.sp = 0 ∧ (∀ j : Fin 16, State.reset.stack[j] = 0) ∧ State.reset.dt = 0 ∧ State.reset.st = 0 ∧
  State.reset.klatch = 0 ∧ (∀ y x, cell State.reset.fb y x = false) ∧ State.reset.displayUpdate = false ∧
  State.reset.soundActive = false ∧
  State.reset.params.fontBase = 0x050#12 ∧ State.reset.params.fontData.toList.map Vector.toList = fontTable ∧
  State.reset.params.spriteBitOrder = .msbLeft ∧ State.reset.params.drawVertical = .clip ∧
  State.reset.params.keyWaitTrigger = .edge ∧ State.reset.params.flagOrder = .flagLast ∧
  State.reset.params.lowMemoryWrites = .allow ∧ State.reset.params.loaderOversize = .reject ∧
  State.reset.readBytes 0x050 80 = fontTable.flatten ∧ (∀ a, a < 0x050 ∨ 0x0A0 ≤ a → State.reset.readByte a = 0)

/-- A Load before the first Cycle copies the image to 0x200, or rejects or truncates an oversize one. Rules R148, R149. That
loadResult is held in the state is log 7. -/
def Obligations.LoadWritesTheImageAtTheProgramBase : Prop :=
  ∀ (s : State) (image : List Byte) (rest : List Event), s.env.events = .load image :: rest → s.env.started = false →
    ∃ t, step s = .next t ∧ t.env = { s.env with events := rest } ∧
      (∀ p : Piece, p ≠ .env → p ≠ .loadResult → (∀ a, p ≠ .byte a) → p.Same s t) ∧
      (∀ a, a < 0x200 ∨ 0x200 + min image.length 3584 ≤ a → t.readByte a = s.readByte a) ∧
      (image.length ≤ 3584 ∨ s.params.loaderOversize = .truncate →
        t.loadResult = some .loaded ∧ ∀ j, j < 3584 → ∀ h : j < image.length, t.readByte (0x200 + j) = image[j]) ∧
      (3584 < image.length → s.params.loaderOversize = .reject →
        t.loadResult = some .rejected ∧ ∀ a, t.readByte a = s.readByte a)

/-- A Load after the first Cycle since a Reset is refused by name. Rules R148, 93_implementation_defined.md section 2. The
refusal's name is the model's (log 8). -/
def Obligations.LoadDuringARunIsRefused : Prop :=
  ∀ (s : State) (image : List Byte) (rest : List Event), s.env.events = .load image :: rest → s.env.started = true →
    step s = .refused .loadDuringRun

/-- SE and SNE skip exactly where their comparison holds and write nothing but pc. Rules R88, R89, R90, R91. -/
def Obligations.SkipsCompareRegisters : Prop :=
  ∀ (s : State) (x y : Nibble) (nn : Byte),
    SkipsWhen (.seImm x nn) s (s.getV x = nn) ∧ SkipsWhen (.sneImm x nn) s (s.getV x ≠ nn) ∧
    SkipsWhen (.seReg x y) s (s.getV x = s.getV y) ∧ SkipsWhen (.sneReg x y) s (s.getV x ≠ s.getV y)

/-- SKP and SKNP skip by the key that the low nibble of V[X] names. Rules R118, R119. The low nibble is the spec's own
decision D7. -/
def Obligations.SkipsReadTheKeys : Prop :=
  ∀ (s : State) (x : Nibble),
    SkipsWhen (.skp x) s (s.env.keys.getLsbD ((s.getV x).toNat % 16) = true) ∧
    SkipsWhen (.sknp x) s (s.env.keys.getLsbD ((s.getV x).toNat % 16) = false)

/-- JP sets pc to NNN, JP V0 to the exact sum NNN + V[0]; nothing else is written. Rules R86, R92. That the sum is exact is
the spec's own decision D3. -/
def Obligations.JumpsSetThePc : Prop :=
  ∀ (s : State) (nnn : Addr),
    (Completes (.jp nnn) s fun t => t.pc.toNat = nnn.toNat ∧ ChangesOnly [.pc] s t) ∧
    (Completes (.jpV0 nnn) s fun t => t.pc.toNat = nnn.toNat + (s.getV 0).toNat ∧ ChangesOnly [.pc] s t)

/-- CALL pushes the advanced pc and jumps; with 16 entries in use it faults with StackOverflow. Rules R20, R87. That 16
entries in use is full is the spec's own decision D21. -/
def Obligations.CallPushesAndJumps : Prop :=
  ∀ (s : State) (nnn : Addr),
    (∀ h : s.sp.val < 16, Completes (.call nnn) s fun t =>
      t.pc.toNat = nnn.toNat ∧ t.sp.val = s.sp.val + 1 ∧ t.stack[s.sp.val] = s.pc ∧
        ChangesOnly [.pc, .sp, .stackEntry ⟨s.sp.val, h⟩] s t) ∧
    (s.sp.val = 16 → Faults (.call nnn) s .stackOverflow)

/-- RET pops the top entry into pc without clearing it; with an empty stack it faults with StackUnderflow. Rules R20, R85.
That a pop does not clear the entry is the spec's own decision D21. -/
def Obligations.RetPopsAndReturns : Prop :=
  ∀ s : State,
    (∀ h : 0 < s.sp.val, Completes .ret s fun t =>
      t.pc = s.stack[s.sp.val - 1] ∧ t.sp.val = s.sp.val - 1 ∧ ChangesOnly [.pc, .sp] s t) ∧
    (s.sp.val = 0 → Faults .ret s .stackUnderflow)

/-- A RET right after a CALL, at any pc, returns to the instruction after the CALL with sp as before. Rules R85, R87,
95_test_vectors.md section 1 S5. -/
def Obligations.RetReturnsAfterTheCall : Prop :=
  ∀ (s : State) (nnn : Addr) (pc' : Word), s.sp.val < 16 →
    ∃ t u, exec (.call nnn) s = .next t ∧ exec .ret (t.setPc pc') = .next u ∧ u.pc = s.pc ∧ u.sp = s.sp

/-- LD Vx,nn, LD Vx,Vy and LD Vx,DT write V[X] and nothing else. Rules R93, R95, R120. -/
def Obligations.LoadsCopyIntoTheRegister : Prop :=
  ∀ (s : State) (x y : Nibble) (nn : Byte),
    (Completes (.ldImm x nn) s fun t => t.getV x = nn ∧ ChangesOnly [.v x] s t) ∧
    (Completes (.ldReg x y) s fun t => t.getV x = s.getV y ∧ ChangesOnly [.v x] s t) ∧
    (Completes (.ldVxDt x) s fun t => t.getV x = s.dt ∧ ChangesOnly [.v x] s t)

/-- ADD Vx,nn adds modulo 256 and writes no flag. Rule R94. -/
def Obligations.AddImmediateWrapsWithoutAFlag : Prop :=
  ∀ (s : State) (x : Nibble) (nn : Byte),
    Completes (.addImm x nn) s fun t => (t.getV x).toNat = ((s.getV x).toNat + nn.toNat) % 256 ∧ ChangesOnly [.v x] s t

/-- OR, AND and XOR combine V[X] and V[Y] bit by bit into V[X] and write nothing else. Rules R96, R97, R98. That VF is left
alone is the spec's own decision D9. -/
def Obligations.LogicIsBitwiseAndLeavesVFAlone : Prop :=
  ∀ (s : State) (x y : Nibble),
    (Completes (.or x y) s fun t =>
      (∀ k, (t.getV x).getLsbD k = ((s.getV x).getLsbD k || (s.getV y).getLsbD k)) ∧ ChangesOnly [.v x] s t) ∧
    (Completes (.and x y) s fun t =>
      (∀ k, (t.getV x).getLsbD k = ((s.getV x).getLsbD k && (s.getV y).getLsbD k)) ∧ ChangesOnly [.v x] s t) ∧
    (Completes (.xor x y) s fun t =>
      (∀ k, (t.getV x).getLsbD k = ((s.getV x).getLsbD k ^^ (s.getV y).getLsbD k)) ∧ ChangesOnly [.v x] s t)

/-- RND leaves V[X] = rnd AND NN for the cycle's random byte, whatever it is. Rules R104, R139. The free byte is log 6; that
rnd is an unconstrained input is the spec's own decision D19. -/
def Obligations.RndMasksTheRandomByte : Prop :=
  ∀ (s : State) (x : Nibble) (nn : Byte),
    Completes (.rnd x nn) s fun t =>
      (∀ b, s.env.rnd = some b → t.getV x = b &&& nn) ∧
      (s.env.rnd = none → t.getV x = Config.freeRnd s.env.cycleNo &&& nn) ∧
      (∀ k, nn.getLsbD k = false → (t.getV x).getLsbD k = false) ∧ ChangesOnly [.v x] s t

/-- ADD, SUB and SUBN leave the result modulo 256 in V[X] and carry or no-borrow in VF. Rules R99, R100, R102. For X = 15 the
statement takes both values of P_FLAG_ORDER (the spec's own decision D8 is only the default). -/
def Obligations.SumsAndDifferencesSetVF : Prop :=
  ∀ (s : State) (x y : Nibble),
    WritesWithFlag (.addReg x y) s x (((s.getV x).toNat + (s.getV y).toNat) % 256)
      (bitOf ((s.getV x).toNat + (s.getV y).toNat > 255)) ∧
    WritesWithFlag (.sub x y) s x (((s.getV x).toNat + 256 - (s.getV y).toNat) % 256)
      (bitOf ((s.getV x).toNat ≥ (s.getV y).toNat)) ∧
    WritesWithFlag (.subn x y) s x (((s.getV y).toNat + 256 - (s.getV x).toNat) % 256)
      (bitOf ((s.getV y).toNat ≥ (s.getV x).toNat))

/-- SHR and SHL shift V[X] by one in place, whatever Y, and leave the bit shifted out in VF. Rules R101, R103. For X = 15 the
statement takes both values of P_FLAG_ORDER (the spec's own decision D8 is only the default). -/
def Obligations.ShiftsSetVFToTheBitShiftedOut : Prop :=
  ∀ (s : State) (x y : Nibble),
    WritesWithFlag (.shr x y) s x ((s.getV x).toNat / 2) ((s.getV x).toNat % 2) ∧
    WritesWithFlag (.shl x y) s x (2 * (s.getV x).toNat % 256) (bitOf ((s.getV x).toNat ≥ 128))

/-- The table of R106: what 8XYn leaves when X = Y. Rule R106. The spec marks R106 as derived. -/
def Obligations.SameRegisterAsBothOperands : Prop :=
  ∀ (s : State) (x : Nibble),
    let v := (s.getV x).toNat
    let leaves := fun (i : Instr) (r f : Nat) =>
      Completes i s fun t => (x ≠ VF → (t.getV x).toNat = r ∧ (t.getV VF).toNat = f)
    let leavesVF := fun (i : Instr) (r : Nat) =>
      x = VF → s.params.flagOrder = .flagLast → Completes i s fun t => (t.getV VF).toNat = r
    leaves (.ldReg x x) v (s.getV VF).toNat ∧ leaves (.or x x) v (s.getV VF).toNat ∧
    leaves (.and x x) v (s.getV VF).toNat ∧ leaves (.xor x x) 0 (s.getV VF).toNat ∧
    leaves (.addReg x x) (2 * v % 256) (bitOf (v ≥ 128)) ∧ leaves (.sub x x) 0 1 ∧ leaves (.shr x x) (v / 2) (v % 2) ∧
    leaves (.subn x x) 0 1 ∧ leaves (.shl x x) (2 * v % 256) (v / 128) ∧
    leavesVF (.ldReg x x) v ∧ leavesVF (.or x x) v ∧ leavesVF (.and x x) v ∧ leavesVF (.xor x x) 0 ∧
    leavesVF (.addReg x x) (bitOf (v ≥ 128)) ∧ leavesVF (.sub x x) 1 ∧ leavesVF (.shr x x) (v % 2) ∧
    leavesVF (.subn x x) 1 ∧ leavesVF (.shl x x) (v / 128)

/-- LD I,nnn sets I to NNN; LD F,Vx to the glyph of V[X]'s low nibble; nothing else is written. Rules R107, R109. -/
def Obligations.IndexLoadsSetI : Prop :=
  ∀ (s : State) (x : Nibble) (nnn : Addr),
    (Completes (.ldI nnn) s fun t => t.I.toNat = nnn.toNat ∧ ChangesOnly [.I] s t) ∧
    (Completes (.ldFVx x) s fun t =>
      t.I.toNat = s.params.fontBase.toNat + 5 * ((s.getV x).toNat % 16) ∧ ChangesOnly [.I] s t)

/-- ADD I,Vx leaves I + V[X] modulo 2^16 and VF = 1 exactly where the exact sum exceeds 0xFFF. Rule R108. The wrap at 16 bits
is the spec's own decision D10. -/
def Obligations.AddToIndexWrapsAndFlagsPastMemory : Prop :=
  ∀ (s : State) (x : Nibble),
    Completes (.addIVx x) s fun t =>
      t.I.toNat = (s.I.toNat + (s.getV x).toNat) % 0x10000 ∧
      (t.getV VF).toNat = bitOf (s.I.toNat + (s.getV x).toNat > 0xFFF) ∧ ChangesOnly [.I, .v VF] s t

/-- LD B,Vx stores the hundreds, tens and ones of V[X] at I, I+1, I+2, or faults on the range. Rules R46, R47, R110. The check
of the whole range before any write is the spec's own decision D2, the low-store parameter its D17. -/
def Obligations.BcdStoresThreeDigitsAtI : Prop :=
  ∀ (s : State) (x : Nibble),
    (s.I.toNat + 2 ≤ 0xFFF → (s.params.lowMemoryWrites = .allow ∨ 0x200 ≤ s.I.toNat) →
      Completes (.ldBVx x) s fun t =>
        (t.readByte s.I.toNat).toNat = (s.getV x).toNat / 100 ∧
        (t.readByte (s.I.toNat + 1)).toNat = (s.getV x).toNat / 10 % 10 ∧
        (t.readByte (s.I.toNat + 2)).toNat = (s.getV x).toNat % 10 ∧
        ChangesOnly [.byte s.I.toNat, .byte (s.I.toNat + 1), .byte (s.I.toNat + 2)] s t) ∧
    ((0xFFF < s.I.toNat + 2 ∨ s.params.lowMemoryWrites = .fault ∧ s.I.toNat < 0x200) →
      Faults (.ldBVx x) s (.memoryBoundsError s.I 3))

/-- LD [I],Vx stores V[0]..V[X] at I..I+X and leaves I, or faults on the range. Rules R46, R47, R111. The check of the whole
range before any write is the spec's own decision D2, the low-store parameter its D17. -/
def Obligations.StoreRegistersAtI : Prop :=
  ∀ (s : State) (x : Nibble),
    (s.I.toNat + x.toNat ≤ 0xFFF → (s.params.lowMemoryWrites = .allow ∨ 0x200 ≤ s.I.toNat) →
      Completes (.storeRegs x) s fun t =>
        (∀ y : Nibble, y.toNat ≤ x.toNat → t.readByte (s.I.toNat + y.toNat) = s.getV y) ∧
        ChangesOnlyWhere (fun p => ∃ y : Nibble, y.toNat ≤ x.toNat ∧ p = .byte (s.I.toNat + y.toNat)) s t) ∧
    ((0xFFF < s.I.toNat + x.toNat ∨ s.params.lowMemoryWrites = .fault ∧ s.I.toNat < 0x200) →
      Faults (.storeRegs x) s (.memoryBoundsError s.I (x.toNat + 1)))

/-- LD Vx,[I] loads V[0]..V[X] from I..I+X and leaves I, or faults on the range. Rules R46, R112. The check of the whole range
before any write is the spec's own decision D2. -/
def Obligations.LoadRegistersFromI : Prop :=
  ∀ (s : State) (x : Nibble),
    (s.I.toNat + x.toNat ≤ 0xFFF →
      Completes (.loadRegs x) s fun t =>
        (∀ y : Nibble, y.toNat ≤ x.toNat → t.getV y = s.readByte (s.I.toNat + y.toNat)) ∧
        ChangesOnlyWhere (fun p => ∃ y : Nibble, y.toNat ≤ x.toNat ∧ p = .v y) s t) ∧
    (0xFFF < s.I.toNat + x.toNat → Faults (.loadRegs x) s (.memoryBoundsError s.I (x.toNat + 1)))

/-- Registers stored with LD [I],Vx come back with LD Vx,[I], whatever V held in between. Rules R49, R111, R112. -/
def Obligations.LoadAfterStoreGivesTheRegistersBack : Prop :=
  ∀ (s : State) (x : Nibble) (v' : Vector Byte 16), s.I.toNat + x.toNat ≤ 0xFFF →
    (s.params.lowMemoryWrites = .allow ∨ 0x200 ≤ s.I.toNat) →
    ∃ t u, exec (.storeRegs x) s = .next t ∧ exec (.loadRegs x) { t with v := v' } = .next u ∧
      (∀ y : Nibble, y.toNat ≤ x.toNat → u.getV y = s.getV y) ∧ ∀ a, u.readByte a = t.readByte a

/-- CLS turns every cell off, tells the display, and leaves VF and everything else. Rule R113. -/
def Obligations.ClsClearsTheScreen : Prop :=
  ∀ s : State, Completes .cls s fun t =>
    (∀ y x, cell t.fb y x = false) ∧ t.displayUpdate = true ∧
      ChangesOnlyWhere (fun p => p = .displayUpdate ∨ ∃ y x, p = .cell y x) s t

/-- DRW inverts exactly the cells its sprite covers; VF tells whether one of them was on. Rules R114, R115, R116. The vertical
behaviour and the bit order are parameters (D11, D13); the check and N = 0 are the spec's own decision D12; lsb_left and its
meaning are the model's own choice, log 13. -/
def Obligations.DrwTogglesTheCoveredCells : Prop :=
  ∀ (s : State) (x y n : Nibble),
    ((n = 0 ∨ s.I.toNat + n.toNat ≤ 0x1000) →
      Completes (.drw x y n) s fun t =>
        (∀ row col, s.Covers x y n row col → cell t.fb row col = !cell s.fb row col) ∧
        (∀ row col, ¬s.Covers x y n row col → cell t.fb row col = cell s.fb row col) ∧
        ((∃ row col, s.Covers x y n row col ∧ cell s.fb row col = true) → t.getV VF = 1) ∧
        ((¬∃ row col, s.Covers x y n row col ∧ cell s.fb row col = true) → t.getV VF = 0) ∧
        t.displayUpdate = true ∧
        ChangesOnlyWhere (fun p => p = .displayUpdate ∨ p = .v VF ∨ ∃ row col, p = .cell row col) s t) ∧
    (n ≠ 0 → 0x1000 < s.I.toNat + n.toNat → Faults (.drw x y n) s (.memoryBoundsError s.I n.toNat))

/-- The same sprite drawn twice at the same place restores every cell, and the second VF tells what the first turned on. Rules
R115, R116, 95_test_vectors.md section 1 S6. For X or Y = 15 the first draw writes the coordinate register, so the second may
land elsewhere; each draw alone is DrwTogglesTheCoveredCells, every form. -/
def Obligations.DrawingTwiceRestoresTheScreen : Prop :=
  ∀ (s : State) (x y n : Nibble), x ≠ VF → y ≠ VF → (n = 0 ∨ s.I.toNat + n.toNat ≤ 0x1000) →
    ∃ t u, exec (.drw x y n) s = .next t ∧ exec (.drw x y n) t = .next u ∧
      (∀ row col, cell u.fb row col = cell s.fb row col) ∧
      (u.getV VF = 1 ↔ ∃ row col, cell s.fb row col = false ∧ cell t.fb row col = true)

/-- LD Vx,K latches the keys and waits; V[X] is not yet written and pc stays. Rule R121. The status AwaitingKey is the spec's
own decision D4. -/
def Obligations.KeyWaitBeginsWithoutAnAnswer : Prop :=
  ∀ (s : State) (x : Nibble), Completes (.ldVxK x) s fun t =>
    t.klatch = s.env.keys ∧ t.status = .awaitingKey x ∧ ChangesOnly [.klatch, .status] s t

/-- LD DT,Vx and LD ST,Vx write their timer and nothing else; sound is active while ST is not 0. Rules R123, R124. -/
def Obligations.TimerLoadsSetTheTimers : Prop :=
  ∀ (s : State) (x : Nibble),
    (Completes (.ldDtVx x) s fun t => t.dt = s.getV x ∧ ChangesOnly [.dt] s t) ∧
    (Completes (.ldStVx x) s fun t =>
      t.st = s.getV x ∧ (t.soundActive = true ↔ s.getV x ≠ 0) ∧ ChangesOnly [.st] s t)

/-- Every step answers a next state, but for a Load during a run. Rules R59, R81, R83, R148. -/
def Obligations.EveryEventHasANextState : Prop :=
  ∀ s : State, (∃ t, step s = .next t) ∨
    (∃ image rest, s.env.events = .load image :: rest) ∧ s.env.started = true ∧ step s = .refused .loadDuringRun

/-- Every instruction answers a next state in every state. Rules R80, R81, R82. -/
def Obligations.EveryInstructionHasANextState : Prop :=
  ∀ (i : Instr) (s : State), ∃ t, exec i s = .next t ∧
    ((∃ f, t.status = .faulted f) → (∃ f, s.status = .faulted f) ∨
      (match i with
        | .call _ | .ret | .ldBVx _ | .storeRegs _ | .loadRegs _ | .drw _ _ _ => True
        | _ => False))

/-- A step that enters Faulted ran a Cycle and leaves everything as before the faulting instruction. Rules R28, R81, R129.
That every fault rolls the cycle back, pc included, is the spec's own decision D2. -/
def Obligations.FaultsArePrecise : Prop :=
  ∀ (s t : State) (f : FaultRecord), step s = .next t → (∀ g, s.status ≠ .faulted g) → t.status = .faulted f →
    (∃ c, s.BeginsCycle c) ∧ s.status = .running ∧ f.fpc = s.pc ∧ t.displayUpdate = false ∧
      ChangesOnly [.status, .displayUpdate, .env] s t

/-- Halted and Faulted are left only by a Reset, and the fault record is kept until then. Rules R26, R129, R132. -/
def Obligations.TerminalStatusIsLeftOnlyByReset : Prop :=
  ∀ s t : State, s.status.Terminal → ¬Resets s → step s = .next t → t.status = s.status

/-- A cell of the framebuffer changes only by a cycle that executes 00E0 or DXYN, or by a Reset. Rules R24, R84, R144. -/
def Obligations.ScreenChangesOnlyByClsDrwOrReset : Prop :=
  ∀ (s t : State) (y : Fin 32) (x : Fin 64), step s = .next t → cell t.fb y x ≠ cell s.fb y x →
    Resets s ∨ Executes s Draws

/-- DT and ST change only by a tick, their own set instruction, or a Reset. Rules R21, R22, R84, R144. -/
def Obligations.TimersChangeOnlyByTickOrSet : Prop :=
  ∀ s t : State, step s = .next t →
    (t.dt ≠ s.dt → (∃ rest, s.env.events = .tick :: rest) ∨ Resets s ∨ Executes s fun i => ∃ x, i = .ldDtVx x) ∧
    (t.st ≠ s.st → (∃ rest, s.env.events = .tick :: rest) ∨ Resets s ∨ Executes s fun i => ∃ x, i = .ldStVx x)

/-- A byte of memory changes only by FX33 or FX55, a Load or a Reset, and by a store only inside its range. Rules R45, R84,
R144, R149. -/
def Obligations.MemoryChangesOnlyByStoresLoadOrReset : Prop :=
  ∀ (s t : State) (a : Nat), step s = .next t → t.readByte a ≠ s.readByte a →
    Resets s ∨ (∃ image rest, s.env.events = .load image :: rest) ∨
      Executes s fun i => (∃ x, i = .ldBVx x ∧ s.I.toNat ≤ a ∧ a ≤ s.I.toNat + 2) ∨
        ∃ x, i = .storeRegs x ∧ s.I.toNat ≤ a ∧ a ≤ s.I.toNat + x.toNat

/-- sp and the stack change only by CALL, RET or a Reset, and RET clears no entry. Rules R19, R20, R144. That a pop clears no
entry is the spec's own decision D21. -/
def Obligations.StackChangesOnlyByCallOrRet : Prop :=
  ∀ s t : State, step s = .next t →
    (t.sp ≠ s.sp → Resets s ∨ Executes s fun i => i = .ret ∨ ∃ nnn, i = .call nnn) ∧
    (∀ j : Fin 16, t.stack[j] ≠ s.stack[j] → Resets s ∨ Executes s fun i => ∃ nnn, i = .call nnn)

/-- V[r] and I change only by the instructions R13, R14 and R16 name, the end of a key wait, or a Reset. Rules R13, R14, R16,
R122, R144. -/
def Obligations.RegistersChangeOnlyByTheirWriters : Prop :=
  ∀ (s t : State) (r : Nibble), step s = .next t →
    (t.getV r ≠ s.getV r → Resets s ∨
      ((∃ c, s.BeginsCycle c) ∧ s.status = .awaitingKey r ∧ t.status = .running) ∨ Executes s fun i => Writes i r) ∧
    (t.I ≠ s.I → Resets s ∨
      Executes s fun i => (∃ nnn, i = .ldI nnn) ∨ (∃ x, i = .addIVx x) ∨ ∃ x, i = .ldFVx x)

/-- An instruction that does not jump leaves pc at A + 2, a skip at A + 2 or A + 4, a fault at A. Rules R30, R77, R78, R84.
The spec marks R84 as derived. -/
def Obligations.PcAfterACycleThatExecutes : Prop :=
  ∀ (s c t : State) (i : Instr), s.BeginsCycle c → s.Fetches → decode s.fetchWord = .op i → step s = .next t →
    ((∃ f, t.status = .faulted f) → t.pc = s.pc) ∧
    ((∀ f, t.status ≠ .faulted f) → ¬Jumps i →
      t.pc.toNat = s.pc.toNat + 2 ∨ Skips i ∧ t.pc.toNat = s.pc.toNat + 4)

/-- display_update after a cycle is true exactly when it executed 00E0 or DXYN without a fault. Rules R31, R82, R117. The form
of the output is the spec's own decision D24. -/
def Obligations.DisplayUpdateExactlyAfterADraw : Prop :=
  ∀ s c t : State, s.BeginsCycle c → step s = .next t →
    (t.displayUpdate = true ↔ Executes s Draws ∧ ∀ f, t.status ≠ .faulted f)

/-- No event changes the parameters, nor an instruction the environment's side. Rules R6, R25, R29. That the parameters are
held in the state is log 1. Beyond the inputs keys and rnd of R25 and R29, the environment's side is the model's own (logs 4,
5, 6 and 8). -/
def Obligations.ParametersNeverChange : Prop :=
  (∀ s t : State, step s = .next t → t.params = s.params) ∧
  ∀ (i : Instr) (s t : State), exec i s = .next t → t.params = s.params ∧ t.env = s.env

/-- No instruction but RND depends on the cycle's random byte. Rule R139. -/
def Obligations.OnlyRndReadsTheRandomByte : Prop :=
  ∀ (i : Instr) (s : State) (r : Option Byte) (k : Nat), (∀ x nn, i ≠ .rnd x nn) →
    exec i { s with env := { s.env with rnd := r, cycleNo := k } } =
      onNext (fun t => { t with env := { t.env with rnd := r, cycleNo := k } }) (exec i s)

/-- No instruction but EX9E, EXA1 and FX0A depends on the keys. Rules R25, R131. -/
def Obligations.OnlyKeyInstructionsReadTheKeys : Prop :=
  ∀ (i : Instr) (s : State) (keys : Word), (∀ x, i ≠ .skp x ∧ i ≠ .sknp x ∧ i ≠ .ldVxK x) →
    exec i { s with env := { s.env with keys := keys } } =
      onNext (fun t => { t with env := { t.env with keys := keys } }) (exec i s)

/-- No instruction reads ST or the key latch. Rules R22, R27. -/
def Obligations.NoInstructionReadsTheSoundTimerOrTheLatch : Prop :=
  ∀ (i : Instr) (s : State) (b : Byte) (w : Word),
    ((∀ x, i ≠ .ldStVx x) → exec i (s.setSt b) = onNext (fun t => t.setSt b) (exec i s)) ∧
    ((∃ x, i = .ldStVx x) → exec i (s.setSt b) = exec i s) ∧
    ((∀ x, i ≠ .ldVxK x) → exec i (s.setKlatch w) = onNext (fun t => t.setKlatch w) (exec i s)) ∧
    ((∃ x, i = .ldVxK x) → exec i (s.setKlatch w) = exec i s)

/-- The state after reset meets both invariants, and the default font lies in the reserved region. Rules R17, R30, R36, R40. -/
def Obligations.InvariantsHoldAtReset : Prop :=
  State.reset.Inv ∧ State.reset.FaultInv ∧ State.reset.params.wellFormed = true

/-- Every step keeps memory canonical, pc at most 0x10FE, return addresses at most 0x1000, and Halted past memory. Rules R17,
R19, R26, R30, R39, R46. The bound 0x10FE is marked derived by the spec (R17); the canonical form of memory is the model's
(log 20). -/
def Obligations.StepKeepsTheInvariant : Prop :=
  ∀ s t : State, s.Inv → step s = .next t → t.Inv

/-- Every step keeps a fault record naming the instruction at pc, with a cause that is true of the state. Rules R28, R125,
R126, R127, R128, R129, R130. -/
def Obligations.StepKeepsFaultRecordsTrue : Prop :=
  ∀ s t : State, s.FaultInv → step s = .next t → t.FaultInv

/-- Two memories in canonical form that read the same at every address are the same list. Rules R49, R53. The canonical form
is the model's (log 20). -/
def Obligations.CanonicalMemoriesWithEqualBytesAreEqual : Prop :=
  ∀ (p : Params) (m m' : List Host.Cell), Memory.wf p m → Memory.wf p m' →
    (∀ a, Memory.read p m a = Memory.read p m' a) → m = m'

/-- After withFetchWord the next step is a Cycle that runs the instruction of the table word. Rules R43, R76, R80.
withFetchWord is the model's (log 9). -/
def Obligations.PlacedWordRunsNext : Prop :=
  ∀ (s : State) (w : Nat) (i : Instr), decodeTableWord 16 w = some i →
    ∃ c, (s.withFetchWord 16 w).BeginsCycle c ∧ step (s.withFetchWord 16 w) = exec i c.advance ∧
      ∀ x, c.advance.getV x = s.getV x
end

