-- ==== Sys2Proof/Laws/Decode.lean ====
section
/-! SUPPORT. The fields of an assembled word are the parts it was assembled from, and a word is its fields. -/

namespace Sys2Proof

/-! ### Fields as numbers (R57) -/

theorem fieldOp_toNat (w : Word) : (fieldOp w).toNat = w.toNat / 0x1000 % 16 := by
  simp [fieldOp, BitVec.extractLsb'_toNat, Nat.shiftRight_eq_div_pow]
theorem fieldX_toNat (w : Word) : (fieldX w).toNat = w.toNat / 0x100 % 16 := by
  simp [fieldX, BitVec.extractLsb'_toNat, Nat.shiftRight_eq_div_pow]
theorem fieldY_toNat (w : Word) : (fieldY w).toNat = w.toNat / 0x10 % 16 := by
  simp [fieldY, BitVec.extractLsb'_toNat, Nat.shiftRight_eq_div_pow]
theorem fieldN_toNat (w : Word) : (fieldN w).toNat = w.toNat % 16 := by
  simp [fieldN, BitVec.extractLsb'_toNat]
theorem fieldNN_toNat (w : Word) : (fieldNN w).toNat = w.toNat % 0x100 := by
  simp [fieldNN, BitVec.extractLsb'_toNat]
theorem fieldNNN_toNat (w : Word) : (fieldNNN w).toNat = w.toNat % 0x1000 := by
  simp [fieldNNN, BitVec.extractLsb'_toNat]

theorem append_toNat {m n : Nat} (a : BitVec m) (b : BitVec n) : (a ++ b).toNat = a.toNat * 2 ^ n + b.toNat := by
  rw [BitVec.toNat_append, ← Nat.shiftLeft_add_eq_or_of_lt b.isLt, Nat.shiftLeft_eq]

theorem word4_toNat (op x y n : Nibble) :
    (word4 op x y n).toNat = op.toNat * 0x1000 + x.toNat * 0x100 + y.toNat * 0x10 + n.toNat := by
  simp only [word4, append_toNat]
  omega
theorem wordNN_toNat (op x : Nibble) (nn : Byte) :
    (wordNN op x nn).toNat = op.toNat * 0x1000 + x.toNat * 0x100 + nn.toNat := by
  simp only [wordNN, append_toNat]
  omega
theorem wordNNN_toNat (op : Nibble) (nnn : Addr) : (wordNNN op nnn).toNat = op.toNat * 0x1000 + nnn.toNat := by
  simp only [wordNNN, append_toNat]
  omega

/-- A word is its high byte and its low byte, big-endian (20_memory.md R43). -/
theorem wordOfBytes_toNat (hi lo : Byte) : (wordOfBytes hi lo).toNat = hi.toNat * 0x100 + lo.toNat := by
  simp only [wordOfBytes, append_toNat]
  omega

@[simp] theorem wordOfBytes_split (w : Word) : wordOfBytes (highByte w) (lowByte w) = w := by
  apply BitVec.eq_of_toNat_eq
  rw [wordOfBytes_toNat]
  simp only [highByte, lowByte, BitVec.extractLsb'_toNat, Nat.shiftRight_eq_div_pow]
  have := w.isLt
  omega

/-! ### The fields of assembled words -/

section
variable (op x y n : Nibble) (nn : Byte) (nnn : Addr)

@[simp] theorem fieldOp_word4 : fieldOp (word4 op x y n) = op := by
  apply BitVec.eq_of_toNat_eq
  rw [fieldOp_toNat, word4_toNat]
  omega
@[simp] theorem fieldX_word4 : fieldX (word4 op x y n) = x := by
  apply BitVec.eq_of_toNat_eq
  rw [fieldX_toNat, word4_toNat]
  omega
@[simp] theorem fieldY_word4 : fieldY (word4 op x y n) = y := by
  apply BitVec.eq_of_toNat_eq
  rw [fieldY_toNat, word4_toNat]
  omega
@[simp] theorem fieldN_word4 : fieldN (word4 op x y n) = n := by
  apply BitVec.eq_of_toNat_eq
  rw [fieldN_toNat, word4_toNat]
  omega
@[simp] theorem fieldOp_wordNN : fieldOp (wordNN op x nn) = op := by
  apply BitVec.eq_of_toNat_eq
  rw [fieldOp_toNat, wordNN_toNat]
  omega
@[simp] theorem fieldX_wordNN : fieldX (wordNN op x nn) = x := by
  apply BitVec.eq_of_toNat_eq
  rw [fieldX_toNat, wordNN_toNat]
  omega
@[simp] theorem fieldNN_wordNN : fieldNN (wordNN op x nn) = nn := by
  apply BitVec.eq_of_toNat_eq
  rw [fieldNN_toNat, wordNN_toNat]
  omega
@[simp] theorem fieldOp_wordNNN : fieldOp (wordNNN op nnn) = op := by
  apply BitVec.eq_of_toNat_eq
  rw [fieldOp_toNat, wordNNN_toNat]
  omega
@[simp] theorem fieldNNN_wordNNN : fieldNNN (wordNNN op nnn) = nnn := by
  apply BitVec.eq_of_toNat_eq
  rw [fieldNNN_toNat, wordNNN_toNat]
  omega
end

/-! ### A word from its fields -/

theorem word4_fields (w : Word) : word4 (fieldOp w) (fieldX w) (fieldY w) (fieldN w) = w := by
  apply BitVec.eq_of_toNat_eq
  rw [word4_toNat, fieldOp_toNat, fieldX_toNat, fieldY_toNat, fieldN_toNat]
  omega
theorem wordNN_fields (w : Word) : wordNN (fieldOp w) (fieldX w) (fieldNN w) = w := by
  apply BitVec.eq_of_toNat_eq
  rw [wordNN_toNat, fieldOp_toNat, fieldX_toNat, fieldNN_toNat]
  omega
theorem wordNNN_fields (w : Word) : wordNNN (fieldOp w) (fieldNNN w) = w := by
  apply BitVec.eq_of_toNat_eq
  rw [wordNNN_toNat, fieldOp_toNat, fieldNNN_toNat]
  omega

end Sys2Proof
end

