-- ==== Sys2Proof/Laws/State.lean ====
section
/-! SUPPORT. What each state update does to each field: one lemma per field, by rfl, so that no later proof unfolds a record
update. Then the same for what is read THROUGH a field: a register, a byte. -/

namespace Sys2Proof.Machine.State

variable (s : State)

/-! ### setV -/

@[simp] theorem setV_params (x : Nibble) (b : Byte) : (s.setV x b).params = s.params := rfl
@[simp] theorem setV_I (x : Nibble) (b : Byte) : (s.setV x b).I = s.I := rfl
@[simp] theorem setV_pc (x : Nibble) (b : Byte) : (s.setV x b).pc = s.pc := rfl
@[simp] theorem setV_sp (x : Nibble) (b : Byte) : (s.setV x b).sp = s.sp := rfl
@[simp] theorem setV_stack (x : Nibble) (b : Byte) : (s.setV x b).stack = s.stack := rfl
@[simp] theorem setV_dt (x : Nibble) (b : Byte) : (s.setV x b).dt = s.dt := rfl
@[simp] theorem setV_st (x : Nibble) (b : Byte) : (s.setV x b).st = s.st := rfl
@[simp] theorem setV_mem (x : Nibble) (b : Byte) : (s.setV x b).mem = s.mem := rfl
@[simp] theorem setV_fb (x : Nibble) (b : Byte) : (s.setV x b).fb = s.fb := rfl
@[simp] theorem setV_status (x : Nibble) (b : Byte) : (s.setV x b).status = s.status := rfl
@[simp] theorem setV_klatch (x : Nibble) (b : Byte) : (s.setV x b).klatch = s.klatch := rfl
@[simp] theorem setV_displayUpdate (x : Nibble) (b : Byte) : (s.setV x b).displayUpdate = s.displayUpdate := rfl
@[simp] theorem setV_loadResult (x : Nibble) (b : Byte) : (s.setV x b).loadResult = s.loadResult := rfl
@[simp] theorem setV_env (x : Nibble) (b : Byte) : (s.setV x b).env = s.env := rfl
@[simp] theorem setV_readByte (x : Nibble) (b : Byte) (z : Nat) : (s.setV x b).readByte z = s.readByte z := rfl

/-! ### setI -/

@[simp] theorem setI_params (w : Word) : (s.setI w).params = s.params := rfl
@[simp] theorem setI_v (w : Word) : (s.setI w).v = s.v := rfl
@[simp] theorem setI_I (w : Word) : (s.setI w).I = w := rfl
@[simp] theorem setI_pc (w : Word) : (s.setI w).pc = s.pc := rfl
@[simp] theorem setI_sp (w : Word) : (s.setI w).sp = s.sp := rfl
@[simp] theorem setI_stack (w : Word) : (s.setI w).stack = s.stack := rfl
@[simp] theorem setI_dt (w : Word) : (s.setI w).dt = s.dt := rfl
@[simp] theorem setI_st (w : Word) : (s.setI w).st = s.st := rfl
@[simp] theorem setI_mem (w : Word) : (s.setI w).mem = s.mem := rfl
@[simp] theorem setI_fb (w : Word) : (s.setI w).fb = s.fb := rfl
@[simp] theorem setI_status (w : Word) : (s.setI w).status = s.status := rfl
@[simp] theorem setI_klatch (w : Word) : (s.setI w).klatch = s.klatch := rfl
@[simp] theorem setI_displayUpdate (w : Word) : (s.setI w).displayUpdate = s.displayUpdate := rfl
@[simp] theorem setI_loadResult (w : Word) : (s.setI w).loadResult = s.loadResult := rfl
@[simp] theorem setI_env (w : Word) : (s.setI w).env = s.env := rfl
@[simp] theorem setI_getV (w : Word) (y : Nibble) : (s.setI w).getV y = s.getV y := rfl
@[simp] theorem setI_readByte (w : Word) (z : Nat) : (s.setI w).readByte z = s.readByte z := rfl

/-! ### setPc -/

@[simp] theorem setPc_params (w : Word) : (s.setPc w).params = s.params := rfl
@[simp] theorem setPc_v (w : Word) : (s.setPc w).v = s.v := rfl
@[simp] theorem setPc_I (w : Word) : (s.setPc w).I = s.I := rfl
@[simp] theorem setPc_pc (w : Word) : (s.setPc w).pc = w := rfl
@[simp] theorem setPc_sp (w : Word) : (s.setPc w).sp = s.sp := rfl
@[simp] theorem setPc_stack (w : Word) : (s.setPc w).stack = s.stack := rfl
@[simp] theorem setPc_dt (w : Word) : (s.setPc w).dt = s.dt := rfl
@[simp] theorem setPc_st (w : Word) : (s.setPc w).st = s.st := rfl
@[simp] theorem setPc_mem (w : Word) : (s.setPc w).mem = s.mem := rfl
@[simp] theorem setPc_fb (w : Word) : (s.setPc w).fb = s.fb := rfl
@[simp] theorem setPc_status (w : Word) : (s.setPc w).status = s.status := rfl
@[simp] theorem setPc_klatch (w : Word) : (s.setPc w).klatch = s.klatch := rfl
@[simp] theorem setPc_displayUpdate (w : Word) : (s.setPc w).displayUpdate = s.displayUpdate := rfl
@[simp] theorem setPc_loadResult (w : Word) : (s.setPc w).loadResult = s.loadResult := rfl
@[simp] theorem setPc_env (w : Word) : (s.setPc w).env = s.env := rfl
@[simp] theorem setPc_getV (w : Word) (y : Nibble) : (s.setPc w).getV y = s.getV y := rfl
@[simp] theorem setPc_readByte (w : Word) (z : Nat) : (s.setPc w).readByte z = s.readByte z := rfl

/-! ### setDt -/

@[simp] theorem setDt_params (b : Byte) : (s.setDt b).params = s.params := rfl
@[simp] theorem setDt_v (b : Byte) : (s.setDt b).v = s.v := rfl
@[simp] theorem setDt_I (b : Byte) : (s.setDt b).I = s.I := rfl
@[simp] theorem setDt_pc (b : Byte) : (s.setDt b).pc = s.pc := rfl
@[simp] theorem setDt_sp (b : Byte) : (s.setDt b).sp = s.sp := rfl
@[simp] theorem setDt_stack (b : Byte) : (s.setDt b).stack = s.stack := rfl
@[simp] theorem setDt_dt (b : Byte) : (s.setDt b).dt = b := rfl
@[simp] theorem setDt_st (b : Byte) : (s.setDt b).st = s.st := rfl
@[simp] theorem setDt_mem (b : Byte) : (s.setDt b).mem = s.mem := rfl
@[simp] theorem setDt_fb (b : Byte) : (s.setDt b).fb = s.fb := rfl
@[simp] theorem setDt_status (b : Byte) : (s.setDt b).status = s.status := rfl
@[simp] theorem setDt_klatch (b : Byte) : (s.setDt b).klatch = s.klatch := rfl
@[simp] theorem setDt_displayUpdate (b : Byte) : (s.setDt b).displayUpdate = s.displayUpdate := rfl
@[simp] theorem setDt_loadResult (b : Byte) : (s.setDt b).loadResult = s.loadResult := rfl
@[simp] theorem setDt_env (b : Byte) : (s.setDt b).env = s.env := rfl
@[simp] theorem setDt_getV (b : Byte) (y : Nibble) : (s.setDt b).getV y = s.getV y := rfl
@[simp] theorem setDt_readByte (b : Byte) (z : Nat) : (s.setDt b).readByte z = s.readByte z := rfl

/-! ### setSt -/

@[simp] theorem setSt_params (b : Byte) : (s.setSt b).params = s.params := rfl
@[simp] theorem setSt_v (b : Byte) : (s.setSt b).v = s.v := rfl
@[simp] theorem setSt_I (b : Byte) : (s.setSt b).I = s.I := rfl
@[simp] theorem setSt_pc (b : Byte) : (s.setSt b).pc = s.pc := rfl
@[simp] theorem setSt_sp (b : Byte) : (s.setSt b).sp = s.sp := rfl
@[simp] theorem setSt_stack (b : Byte) : (s.setSt b).stack = s.stack := rfl
@[simp] theorem setSt_dt (b : Byte) : (s.setSt b).dt = s.dt := rfl
@[simp] theorem setSt_st (b : Byte) : (s.setSt b).st = b := rfl
@[simp] theorem setSt_mem (b : Byte) : (s.setSt b).mem = s.mem := rfl
@[simp] theorem setSt_fb (b : Byte) : (s.setSt b).fb = s.fb := rfl
@[simp] theorem setSt_status (b : Byte) : (s.setSt b).status = s.status := rfl
@[simp] theorem setSt_klatch (b : Byte) : (s.setSt b).klatch = s.klatch := rfl
@[simp] theorem setSt_displayUpdate (b : Byte) : (s.setSt b).displayUpdate = s.displayUpdate := rfl
@[simp] theorem setSt_loadResult (b : Byte) : (s.setSt b).loadResult = s.loadResult := rfl
@[simp] theorem setSt_env (b : Byte) : (s.setSt b).env = s.env := rfl
@[simp] theorem setSt_getV (b : Byte) (y : Nibble) : (s.setSt b).getV y = s.getV y := rfl
@[simp] theorem setSt_readByte (b : Byte) (z : Nat) : (s.setSt b).readByte z = s.readByte z := rfl

/-! ### setStatus -/

@[simp] theorem setStatus_params (q : Status) : (s.setStatus q).params = s.params := rfl
@[simp] theorem setStatus_v (q : Status) : (s.setStatus q).v = s.v := rfl
@[simp] theorem setStatus_I (q : Status) : (s.setStatus q).I = s.I := rfl
@[simp] theorem setStatus_pc (q : Status) : (s.setStatus q).pc = s.pc := rfl
@[simp] theorem setStatus_sp (q : Status) : (s.setStatus q).sp = s.sp := rfl
@[simp] theorem setStatus_stack (q : Status) : (s.setStatus q).stack = s.stack := rfl
@[simp] theorem setStatus_dt (q : Status) : (s.setStatus q).dt = s.dt := rfl
@[simp] theorem setStatus_st (q : Status) : (s.setStatus q).st = s.st := rfl
@[simp] theorem setStatus_mem (q : Status) : (s.setStatus q).mem = s.mem := rfl
@[simp] theorem setStatus_fb (q : Status) : (s.setStatus q).fb = s.fb := rfl
@[simp] theorem setStatus_status (q : Status) : (s.setStatus q).status = q := rfl
@[simp] theorem setStatus_klatch (q : Status) : (s.setStatus q).klatch = s.klatch := rfl
@[simp] theorem setStatus_displayUpdate (q : Status) : (s.setStatus q).displayUpdate = s.displayUpdate := rfl
@[simp] theorem setStatus_loadResult (q : Status) : (s.setStatus q).loadResult = s.loadResult := rfl
@[simp] theorem setStatus_env (q : Status) : (s.setStatus q).env = s.env := rfl
@[simp] theorem setStatus_getV (q : Status) (y : Nibble) : (s.setStatus q).getV y = s.getV y := rfl
@[simp] theorem setStatus_readByte (q : Status) (z : Nat) : (s.setStatus q).readByte z = s.readByte z := rfl

/-! ### setKlatch -/

@[simp] theorem setKlatch_params (w : Word) : (s.setKlatch w).params = s.params := rfl
@[simp] theorem setKlatch_v (w : Word) : (s.setKlatch w).v = s.v := rfl
@[simp] theorem setKlatch_I (w : Word) : (s.setKlatch w).I = s.I := rfl
@[simp] theorem setKlatch_pc (w : Word) : (s.setKlatch w).pc = s.pc := rfl
@[simp] theorem setKlatch_sp (w : Word) : (s.setKlatch w).sp = s.sp := rfl
@[simp] theorem setKlatch_stack (w : Word) : (s.setKlatch w).stack = s.stack := rfl
@[simp] theorem setKlatch_dt (w : Word) : (s.setKlatch w).dt = s.dt := rfl
@[simp] theorem setKlatch_st (w : Word) : (s.setKlatch w).st = s.st := rfl
@[simp] theorem setKlatch_mem (w : Word) : (s.setKlatch w).mem = s.mem := rfl
@[simp] theorem setKlatch_fb (w : Word) : (s.setKlatch w).fb = s.fb := rfl
@[simp] theorem setKlatch_status (w : Word) : (s.setKlatch w).status = s.status := rfl
@[simp] theorem setKlatch_klatch (w : Word) : (s.setKlatch w).klatch = w := rfl
@[simp] theorem setKlatch_displayUpdate (w : Word) : (s.setKlatch w).displayUpdate = s.displayUpdate := rfl
@[simp] theorem setKlatch_loadResult (w : Word) : (s.setKlatch w).loadResult = s.loadResult := rfl
@[simp] theorem setKlatch_env (w : Word) : (s.setKlatch w).env = s.env := rfl
@[simp] theorem setKlatch_getV (w : Word) (y : Nibble) : (s.setKlatch w).getV y = s.getV y := rfl
@[simp] theorem setKlatch_readByte (w : Word) (z : Nat) : (s.setKlatch w).readByte z = s.readByte z := rfl

/-! ### showFb -/

@[simp] theorem showFb_params (k : Framebuffer) : (s.showFb k).params = s.params := rfl
@[simp] theorem showFb_v (k : Framebuffer) : (s.showFb k).v = s.v := rfl
@[simp] theorem showFb_I (k : Framebuffer) : (s.showFb k).I = s.I := rfl
@[simp] theorem showFb_pc (k : Framebuffer) : (s.showFb k).pc = s.pc := rfl
@[simp] theorem showFb_sp (k : Framebuffer) : (s.showFb k).sp = s.sp := rfl
@[simp] theorem showFb_stack (k : Framebuffer) : (s.showFb k).stack = s.stack := rfl
@[simp] theorem showFb_dt (k : Framebuffer) : (s.showFb k).dt = s.dt := rfl
@[simp] theorem showFb_st (k : Framebuffer) : (s.showFb k).st = s.st := rfl
@[simp] theorem showFb_mem (k : Framebuffer) : (s.showFb k).mem = s.mem := rfl
@[simp] theorem showFb_fb (k : Framebuffer) : (s.showFb k).fb = k := rfl
@[simp] theorem showFb_status (k : Framebuffer) : (s.showFb k).status = s.status := rfl
@[simp] theorem showFb_klatch (k : Framebuffer) : (s.showFb k).klatch = s.klatch := rfl
@[simp] theorem showFb_displayUpdate (k : Framebuffer) : (s.showFb k).displayUpdate = true := rfl
@[simp] theorem showFb_loadResult (k : Framebuffer) : (s.showFb k).loadResult = s.loadResult := rfl
@[simp] theorem showFb_env (k : Framebuffer) : (s.showFb k).env = s.env := rfl
@[simp] theorem showFb_getV (k : Framebuffer) (y : Nibble) : (s.showFb k).getV y = s.getV y := rfl
@[simp] theorem showFb_readByte (k : Framebuffer) (z : Nat) : (s.showFb k).readByte z = s.readByte z := rfl

/-! ### storeBytes -/

@[simp] theorem storeBytes_params (a : Nat) (bs : List Byte) : (s.storeBytes a bs).params = s.params := rfl
@[simp] theorem storeBytes_v (a : Nat) (bs : List Byte) : (s.storeBytes a bs).v = s.v := rfl
@[simp] theorem storeBytes_I (a : Nat) (bs : List Byte) : (s.storeBytes a bs).I = s.I := rfl
@[simp] theorem storeBytes_pc (a : Nat) (bs : List Byte) : (s.storeBytes a bs).pc = s.pc := rfl
@[simp] theorem storeBytes_sp (a : Nat) (bs : List Byte) : (s.storeBytes a bs).sp = s.sp := rfl
@[simp] theorem storeBytes_stack (a : Nat) (bs : List Byte) : (s.storeBytes a bs).stack = s.stack := rfl
@[simp] theorem storeBytes_dt (a : Nat) (bs : List Byte) : (s.storeBytes a bs).dt = s.dt := rfl
@[simp] theorem storeBytes_st (a : Nat) (bs : List Byte) : (s.storeBytes a bs).st = s.st := rfl
@[simp] theorem storeBytes_mem (a : Nat) (bs : List Byte) : (s.storeBytes a bs).mem = Memory.writeBytes s.params s.mem a bs := rfl
@[simp] theorem storeBytes_fb (a : Nat) (bs : List Byte) : (s.storeBytes a bs).fb = s.fb := rfl
@[simp] theorem storeBytes_status (a : Nat) (bs : List Byte) : (s.storeBytes a bs).status = s.status := rfl
@[simp] theorem storeBytes_klatch (a : Nat) (bs : List Byte) : (s.storeBytes a bs).klatch = s.klatch := rfl
@[simp] theorem storeBytes_displayUpdate (a : Nat) (bs : List Byte) : (s.storeBytes a bs).displayUpdate = s.displayUpdate := rfl
@[simp] theorem storeBytes_loadResult (a : Nat) (bs : List Byte) : (s.storeBytes a bs).loadResult = s.loadResult := rfl
@[simp] theorem storeBytes_env (a : Nat) (bs : List Byte) : (s.storeBytes a bs).env = s.env := rfl
@[simp] theorem storeBytes_getV (a : Nat) (bs : List Byte) (y : Nibble) : (s.storeBytes a bs).getV y = s.getV y := rfl

/-! ### advance -/

@[simp] theorem advance_params : (s.advance).params = s.params := rfl
@[simp] theorem advance_v : (s.advance).v = s.v := rfl
@[simp] theorem advance_I : (s.advance).I = s.I := rfl
@[simp] theorem advance_pc : (s.advance).pc = s.pc + 2 := rfl
@[simp] theorem advance_sp : (s.advance).sp = s.sp := rfl
@[simp] theorem advance_stack : (s.advance).stack = s.stack := rfl
@[simp] theorem advance_dt : (s.advance).dt = s.dt := rfl
@[simp] theorem advance_st : (s.advance).st = s.st := rfl
@[simp] theorem advance_mem : (s.advance).mem = s.mem := rfl
@[simp] theorem advance_fb : (s.advance).fb = s.fb := rfl
@[simp] theorem advance_status : (s.advance).status = s.status := rfl
@[simp] theorem advance_klatch : (s.advance).klatch = s.klatch := rfl
@[simp] theorem advance_displayUpdate : (s.advance).displayUpdate = s.displayUpdate := rfl
@[simp] theorem advance_loadResult : (s.advance).loadResult = s.loadResult := rfl
@[simp] theorem advance_env : (s.advance).env = s.env := rfl
@[simp] theorem advance_getV (y : Nibble) : (s.advance).getV y = s.getV y := rfl
@[simp] theorem advance_readByte (z : Nat) : (s.advance).readByte z = s.readByte z := rfl

/-! ### skip -/

@[simp] theorem skip_params : (s.skip).params = s.params := rfl
@[simp] theorem skip_v : (s.skip).v = s.v := rfl
@[simp] theorem skip_I : (s.skip).I = s.I := rfl
@[simp] theorem skip_pc : (s.skip).pc = s.pc + 2 := rfl
@[simp] theorem skip_sp : (s.skip).sp = s.sp := rfl
@[simp] theorem skip_stack : (s.skip).stack = s.stack := rfl
@[simp] theorem skip_dt : (s.skip).dt = s.dt := rfl
@[simp] theorem skip_st : (s.skip).st = s.st := rfl
@[simp] theorem skip_mem : (s.skip).mem = s.mem := rfl
@[simp] theorem skip_fb : (s.skip).fb = s.fb := rfl
@[simp] theorem skip_status : (s.skip).status = s.status := rfl
@[simp] theorem skip_klatch : (s.skip).klatch = s.klatch := rfl
@[simp] theorem skip_displayUpdate : (s.skip).displayUpdate = s.displayUpdate := rfl
@[simp] theorem skip_loadResult : (s.skip).loadResult = s.loadResult := rfl
@[simp] theorem skip_env : (s.skip).env = s.env := rfl
@[simp] theorem skip_getV (y : Nibble) : (s.skip).getV y = s.getV y := rfl
@[simp] theorem skip_readByte (z : Nat) : (s.skip).readByte z = s.readByte z := rfl

/-! ### takeFault -/

@[simp] theorem takeFault_params (c : Cause) (A : Word) (w : Option Word) : (s.takeFault c A w).params = s.params := rfl
@[simp] theorem takeFault_v (c : Cause) (A : Word) (w : Option Word) : (s.takeFault c A w).v = s.v := rfl
@[simp] theorem takeFault_I (c : Cause) (A : Word) (w : Option Word) : (s.takeFault c A w).I = s.I := rfl
@[simp] theorem takeFault_pc (c : Cause) (A : Word) (w : Option Word) : (s.takeFault c A w).pc = A := rfl
@[simp] theorem takeFault_sp (c : Cause) (A : Word) (w : Option Word) : (s.takeFault c A w).sp = s.sp := rfl
@[simp] theorem takeFault_stack (c : Cause) (A : Word) (w : Option Word) : (s.takeFault c A w).stack = s.stack := rfl
@[simp] theorem takeFault_dt (c : Cause) (A : Word) (w : Option Word) : (s.takeFault c A w).dt = s.dt := rfl
@[simp] theorem takeFault_st (c : Cause) (A : Word) (w : Option Word) : (s.takeFault c A w).st = s.st := rfl
@[simp] theorem takeFault_mem (c : Cause) (A : Word) (w : Option Word) : (s.takeFault c A w).mem = s.mem := rfl
@[simp] theorem takeFault_fb (c : Cause) (A : Word) (w : Option Word) : (s.takeFault c A w).fb = s.fb := rfl
@[simp] theorem takeFault_status (c : Cause) (A : Word) (w : Option Word) : (s.takeFault c A w).status = .faulted ⟨c, A, w⟩ := rfl
@[simp] theorem takeFault_klatch (c : Cause) (A : Word) (w : Option Word) : (s.takeFault c A w).klatch = s.klatch := rfl
@[simp] theorem takeFault_displayUpdate (c : Cause) (A : Word) (w : Option Word) : (s.takeFault c A w).displayUpdate = false := rfl
@[simp] theorem takeFault_loadResult (c : Cause) (A : Word) (w : Option Word) : (s.takeFault c A w).loadResult = s.loadResult := rfl
@[simp] theorem takeFault_env (c : Cause) (A : Word) (w : Option Word) : (s.takeFault c A w).env = s.env := rfl
@[simp] theorem takeFault_getV (c : Cause) (A : Word) (w : Option Word) (y : Nibble) : (s.takeFault c A w).getV y = s.getV y := rfl
@[simp] theorem takeFault_readByte (c : Cause) (A : Word) (w : Option Word) (z : Nat) : (s.takeFault c A w).readByte z = s.readByte z := rfl

/-! ### raiseFault -/

@[simp] theorem raiseFault_params (i : Instr) (c : Cause) : (s.raiseFault i c).params = s.params := rfl
@[simp] theorem raiseFault_v (i : Instr) (c : Cause) : (s.raiseFault i c).v = s.v := rfl
@[simp] theorem raiseFault_I (i : Instr) (c : Cause) : (s.raiseFault i c).I = s.I := rfl
@[simp] theorem raiseFault_pc (i : Instr) (c : Cause) : (s.raiseFault i c).pc = s.pc - 2 := rfl
@[simp] theorem raiseFault_sp (i : Instr) (c : Cause) : (s.raiseFault i c).sp = s.sp := rfl
@[simp] theorem raiseFault_stack (i : Instr) (c : Cause) : (s.raiseFault i c).stack = s.stack := rfl
@[simp] theorem raiseFault_dt (i : Instr) (c : Cause) : (s.raiseFault i c).dt = s.dt := rfl
@[simp] theorem raiseFault_st (i : Instr) (c : Cause) : (s.raiseFault i c).st = s.st := rfl
@[simp] theorem raiseFault_mem (i : Instr) (c : Cause) : (s.raiseFault i c).mem = s.mem := rfl
@[simp] theorem raiseFault_fb (i : Instr) (c : Cause) : (s.raiseFault i c).fb = s.fb := rfl
@[simp] theorem raiseFault_status (i : Instr) (c : Cause) : (s.raiseFault i c).status = .faulted ⟨c, s.pc - 2, some (encode i)⟩ := rfl
@[simp] theorem raiseFault_klatch (i : Instr) (c : Cause) : (s.raiseFault i c).klatch = s.klatch := rfl
@[simp] theorem raiseFault_displayUpdate (i : Instr) (c : Cause) : (s.raiseFault i c).displayUpdate = false := rfl
@[simp] theorem raiseFault_loadResult (i : Instr) (c : Cause) : (s.raiseFault i c).loadResult = s.loadResult := rfl
@[simp] theorem raiseFault_env (i : Instr) (c : Cause) : (s.raiseFault i c).env = s.env := rfl
@[simp] theorem raiseFault_getV (i : Instr) (c : Cause) (y : Nibble) : (s.raiseFault i c).getV y = s.getV y := rfl
@[simp] theorem raiseFault_readByte (i : Instr) (c : Cause) (z : Nat) : (s.raiseFault i c).readByte z = s.readByte z := rfl

/-! ### dropEvent -/

@[simp] theorem dropEvent_params : (s.dropEvent).params = s.params := rfl
@[simp] theorem dropEvent_v : (s.dropEvent).v = s.v := rfl
@[simp] theorem dropEvent_I : (s.dropEvent).I = s.I := rfl
@[simp] theorem dropEvent_pc : (s.dropEvent).pc = s.pc := rfl
@[simp] theorem dropEvent_sp : (s.dropEvent).sp = s.sp := rfl
@[simp] theorem dropEvent_stack : (s.dropEvent).stack = s.stack := rfl
@[simp] theorem dropEvent_dt : (s.dropEvent).dt = s.dt := rfl
@[simp] theorem dropEvent_st : (s.dropEvent).st = s.st := rfl
@[simp] theorem dropEvent_mem : (s.dropEvent).mem = s.mem := rfl
@[simp] theorem dropEvent_fb : (s.dropEvent).fb = s.fb := rfl
@[simp] theorem dropEvent_status : (s.dropEvent).status = s.status := rfl
@[simp] theorem dropEvent_klatch : (s.dropEvent).klatch = s.klatch := rfl
@[simp] theorem dropEvent_displayUpdate : (s.dropEvent).displayUpdate = s.displayUpdate := rfl
@[simp] theorem dropEvent_loadResult : (s.dropEvent).loadResult = s.loadResult := rfl
@[simp] theorem dropEvent_env : (s.dropEvent).env = { s.env with events := s.env.events.tail } := rfl
@[simp] theorem dropEvent_getV (y : Nibble) : (s.dropEvent).getV y = s.getV y := rfl
@[simp] theorem dropEvent_readByte (z : Nat) : (s.dropEvent).readByte z = s.readByte z := rfl

/-! ### samplePorts -/

@[simp] theorem samplePorts_params (k : Word) (r : Byte) : (s.samplePorts k r).params = s.params := rfl
@[simp] theorem samplePorts_v (k : Word) (r : Byte) : (s.samplePorts k r).v = s.v := rfl
@[simp] theorem samplePorts_I (k : Word) (r : Byte) : (s.samplePorts k r).I = s.I := rfl
@[simp] theorem samplePorts_pc (k : Word) (r : Byte) : (s.samplePorts k r).pc = s.pc := rfl
@[simp] theorem samplePorts_sp (k : Word) (r : Byte) : (s.samplePorts k r).sp = s.sp := rfl
@[simp] theorem samplePorts_stack (k : Word) (r : Byte) : (s.samplePorts k r).stack = s.stack := rfl
@[simp] theorem samplePorts_dt (k : Word) (r : Byte) : (s.samplePorts k r).dt = s.dt := rfl
@[simp] theorem samplePorts_st (k : Word) (r : Byte) : (s.samplePorts k r).st = s.st := rfl
@[simp] theorem samplePorts_mem (k : Word) (r : Byte) : (s.samplePorts k r).mem = s.mem := rfl
@[simp] theorem samplePorts_fb (k : Word) (r : Byte) : (s.samplePorts k r).fb = s.fb := rfl
@[simp] theorem samplePorts_status (k : Word) (r : Byte) : (s.samplePorts k r).status = s.status := rfl
@[simp] theorem samplePorts_klatch (k : Word) (r : Byte) : (s.samplePorts k r).klatch = s.klatch := rfl
@[simp] theorem samplePorts_displayUpdate (k : Word) (r : Byte) : (s.samplePorts k r).displayUpdate = false := rfl
@[simp] theorem samplePorts_loadResult (k : Word) (r : Byte) : (s.samplePorts k r).loadResult = s.loadResult := rfl
@[simp] theorem samplePorts_env (k : Word) (r : Byte) : (s.samplePorts k r).env = { s.env with keys := k, rnd := some r, cycleNo := s.env.cycleNo + 1, started := true } := rfl
@[simp] theorem samplePorts_getV (k : Word) (r : Byte) (y : Nibble) : (s.samplePorts k r).getV y = s.getV y := rfl
@[simp] theorem samplePorts_readByte (k : Word) (r : Byte) (z : Nat) : (s.samplePorts k r).readByte z = s.readByte z := rfl

/-! ### sampleHeld -/

@[simp] theorem sampleHeld_params : (s.sampleHeld).params = s.params := rfl
@[simp] theorem sampleHeld_v : (s.sampleHeld).v = s.v := rfl
@[simp] theorem sampleHeld_I : (s.sampleHeld).I = s.I := rfl
@[simp] theorem sampleHeld_pc : (s.sampleHeld).pc = s.pc := rfl
@[simp] theorem sampleHeld_sp : (s.sampleHeld).sp = s.sp := rfl
@[simp] theorem sampleHeld_stack : (s.sampleHeld).stack = s.stack := rfl
@[simp] theorem sampleHeld_dt : (s.sampleHeld).dt = s.dt := rfl
@[simp] theorem sampleHeld_st : (s.sampleHeld).st = s.st := rfl
@[simp] theorem sampleHeld_mem : (s.sampleHeld).mem = s.mem := rfl
@[simp] theorem sampleHeld_fb : (s.sampleHeld).fb = s.fb := rfl
@[simp] theorem sampleHeld_status : (s.sampleHeld).status = s.status := rfl
@[simp] theorem sampleHeld_klatch : (s.sampleHeld).klatch = s.klatch := rfl
@[simp] theorem sampleHeld_displayUpdate : (s.sampleHeld).displayUpdate = false := rfl
@[simp] theorem sampleHeld_loadResult : (s.sampleHeld).loadResult = s.loadResult := rfl
@[simp] theorem sampleHeld_env : (s.sampleHeld).env = { s.env with rnd := none, cycleNo := s.env.cycleNo + 1, started := true } := rfl
@[simp] theorem sampleHeld_getV (y : Nibble) : (s.sampleHeld).getV y = s.getV y := rfl
@[simp] theorem sampleHeld_readByte (z : Nat) : (s.sampleHeld).readByte z = s.readByte z := rfl

end Sys2Proof.Machine.State
end

