-- ==== Sys2Proof/Laws/Memory.lean ====
section
/-! SUPPORT. The laws of memory: a read after a write, and the canonical form that every memory operation keeps. -/

namespace Sys2Proof.Machine

namespace Memory

variable (p : Params)

/-! ### Reading after writing -/

@[simp] theorem read_nil (a : Nat) : read p [] a = unlisted p a := rfl

theorem read_cons (c : Host.Cell) (m : List Host.Cell) (a : Nat) :
    read p (c :: m) a = if c.1 = a then c.2 else read p m a := rfl

theorem read_insert (m : List Host.Cell) (a : Nat) (b : Byte) (z : Nat) :
    read p (insert m a b) z = if z = a then b else read p m z := by
  induction m with
  | nil => simp only [insert, read_cons, eq_comm]
  | cons c m ih =>
    simp only [insert]
    split
    · simp only [read_cons, eq_comm (a := a)]
    · split
      · rename_i h
        subst h
        simp only [read_cons, eq_comm (a := z)]
        split <;> rfl
      · rename_i h
        simp only [read_cons, ih]
        split
        · rename_i hc
          subst hc
          rw [if_neg (Ne.symm h)]
        · rfl

theorem read_erase (m : List Host.Cell) (a z : Nat) :
    read p (erase m a) z = if z = a then unlisted p a else read p m z := by
  induction m with
  | nil =>
    simp only [erase, read_nil]
    split <;> simp_all
  | cons c m ih =>
    simp only [erase]
    split
    · rename_i h
      simp only [ih, read_cons]
      split
      · rfl
      · rw [if_neg (by omega)]
    · rename_i h
      simp only [read_cons, ih]
      split
      · rename_i hc
        rw [if_neg (by omega)]
      · rfl

/-- A byte written is the byte read, and every other address reads as before. -/
@[simp] theorem read_write (m : List Host.Cell) (a : Nat) (b : Byte) (z : Nat) :
    read p (write p m a b) z = if z = a then b else read p m z := by
  unfold write
  split
  · rename_i h
    rw [read_erase, h]
  · exact read_insert p m a b z

/-- Bytes written in order: the z-th of them where z falls among them, and every other address reads as before. -/
theorem read_writeBytes (m : List Host.Cell) (a : Nat) (bs : List Byte) (z : Nat) :
    read p (writeBytes p m a bs) z = if a ≤ z then (bs[z - a]?).getD (read p m z) else read p m z := by
  induction bs generalizing m a with
  | nil => simp [writeBytes]
  | cons b bs ih =>
    rw [writeBytes, ih]
    by_cases h1 : a + 1 ≤ z
    · obtain ⟨k, rfl⟩ : ∃ k, z = a + 1 + k := ⟨z - (a + 1), by omega⟩
      have e1 : a + 1 + k - (a + 1) = k := by omega
      have e2 : a + 1 + k - a = k + 1 := by omega
      rw [if_pos h1, if_pos (by omega), e1, e2, read_write, if_neg (by omega)]
      simp
    · rw [if_neg h1, read_write]
      by_cases h2 : a = z
      · subst h2
        simp
      · rw [if_neg (fun h => h2 h.symm), if_neg (by omega)]

@[simp] theorem length_readBytes (m : List Host.Cell) (a n : Nat) : (readBytes p m a n).length = n := by
  induction n generalizing a with
  | zero => rfl
  | succ n ih => simp [readBytes, ih]

@[simp] theorem getElem_readBytes (m : List Host.Cell) (a n j : Nat) (h : j < (readBytes p m a n).length) :
    (readBytes p m a n)[j] = read p m (a + j) := by
  induction n generalizing a j with
  | zero => simp at h
  | succ n ih =>
    cases j with
    | zero => rfl
    | succ j => simp [readBytes, ih, Nat.add_assoc, Nat.add_comm 1 j]

/-! ### The canonical form -/

@[simp] theorem wf_nil : wf p [] := ⟨List.Pairwise.nil, by simp⟩

theorem mem_insert {m : List Host.Cell} {a : Nat} {b : Byte} {c : Host.Cell} (h : c ∈ insert m a b) :
    c = (a, b) ∨ c ∈ m := by
  induction m with
  | nil => simpa [insert] using h
  | cons d m ih =>
    simp only [insert] at h
    split at h
    · simpa using h
    · split at h
      · rcases List.mem_cons.1 h with rfl | h
        · exact .inl rfl
        · exact .inr (List.mem_cons_of_mem _ h)
      · rcases List.mem_cons.1 h with rfl | h
        · exact .inr List.mem_cons_self
        · exact (ih h).imp id (List.mem_cons_of_mem _)

theorem mem_erase {m : List Host.Cell} {a : Nat} {c : Host.Cell} (h : c ∈ erase m a) : c ∈ m := by
  induction m with
  | nil => simp [erase] at h
  | cons d m ih =>
    simp only [erase] at h
    split at h
    · exact List.mem_cons_of_mem _ (ih h)
    · rcases List.mem_cons.1 h with rfl | h
      · exact List.mem_cons_self
      · exact List.mem_cons_of_mem _ (ih h)

theorem pairwise_erase {m : List Host.Cell} {a : Nat} (h : m.Pairwise fun c d => c.1 < d.1) :
    (erase m a).Pairwise fun c d => c.1 < d.1 := by
  induction m with
  | nil => simp [erase]
  | cons d m ih =>
    obtain ⟨h1, h2⟩ := List.pairwise_cons.1 h
    simp only [erase]
    split
    · exact ih h2
    · exact List.pairwise_cons.2 ⟨fun c hc => h1 c (mem_erase hc), ih h2⟩

theorem pairwise_insert {m : List Host.Cell} {a : Nat} {b : Byte} (h : m.Pairwise fun c d => c.1 < d.1) :
    (insert m a b).Pairwise fun c d => c.1 < d.1 := by
  induction m with
  | nil => simp [insert]
  | cons d m ih =>
    obtain ⟨h1, h2⟩ := List.pairwise_cons.1 h
    simp only [insert]
    split
    · rename_i hlt
      refine List.pairwise_cons.2 ⟨fun c hc => ?_, h⟩
      rcases List.mem_cons.1 hc with rfl | hc
      · exact hlt
      · exact Nat.lt_trans hlt (h1 c hc)
    · split
      · rename_i heq
        exact List.pairwise_cons.2 ⟨fun c hc => by simpa [heq] using h1 c hc, h2⟩
      · refine List.pairwise_cons.2 ⟨fun c hc => ?_, ih h2⟩
        rcases mem_insert hc with rfl | hc
        · simp only
          omega
        · exact h1 c hc

/-- Storing a byte at an address that exists keeps the canonical form. -/
theorem wf_write {m : List Host.Cell} {a : Nat} {b : Byte} (h : wf p m) (ha : a < Config.memSize) :
    wf p (write p m a b) := by
  unfold write
  split
  · exact ⟨pairwise_erase h.1, fun c hc => h.2 c (mem_erase hc)⟩
  · rename_i hb
    refine ⟨pairwise_insert h.1, fun c hc => ?_⟩
    rcases mem_insert hc with rfl | hc
    · exact ⟨ha, hb⟩
    · exact h.2 c hc

/-- Storing bytes in order at addresses that exist keeps the canonical form. -/
theorem wf_writeBytes {m : List Host.Cell} {a : Nat} {bs : List Byte} (h : wf p m)
    (ha : a + bs.length ≤ Config.memSize) : wf p (writeBytes p m a bs) := by
  induction bs generalizing m a with
  | nil => exact h
  | cons b bs ih =>
    simp only [List.length_cons] at ha
    exact ih (wf_write p h (by omega)) (by omega)

end Memory

namespace State

variable (s : State)

/-- What a store leaves at an address. -/
theorem storeBytes_readByte (a : Nat) (bs : List Byte) (z : Nat) :
    (s.storeBytes a bs).readByte z = if a ≤ z then (bs[z - a]?).getD (s.readByte z) else s.readByte z :=
  Memory.read_writeBytes s.params s.mem a bs z

@[simp] theorem length_readBytes (a n : Nat) : (s.readBytes a n).length = n :=
  Memory.length_readBytes _ _ _ _

@[simp] theorem getElem_readBytes (a n j : Nat) (h : j < (s.readBytes a n).length) :
    (s.readBytes a n)[j] = s.readByte (a + j) :=
  Memory.getElem_readBytes _ _ _ _ _ h

end State

end Sys2Proof.Machine
end

