-- ==== Sys2Proof/Laws/Ops.lean ====
section
/-! SUPPORT. One lemma per shared operation that says everything it can do: registers, flag writes, skip, push and pop, the bounds
checks, framebuffer cells. -/

namespace Sys2Proof.Machine

theorem nibble_ofNat_toNat {j : Nat} (h : j < 16) : (BitVec.ofNat 4 j).toNat = j := by
  simp only [BitVec.toNat_ofNat]
  omega

theorem nibble_ofNat_inj {j k : Nat} (hj : j < 16) (hk : k < 16) : BitVec.ofNat 4 j = BitVec.ofNat 4 k ↔ j = k := by
  rw [← BitVec.toNat_inj, nibble_ofNat_toNat hj, nibble_ofNat_toNat hk]

namespace State

variable (s : State)

/-! ### Registers -/

/-- A register written reads as the byte written, and every other register reads as before. -/
theorem setV_getV (x : Nibble) (b : Byte) (y : Nibble) : (s.setV x b).getV y = if x = y then b else s.getV y := by
  simp [getV, setV, Vector.getElem_set, BitVec.toNat_inj]

@[simp] theorem setV_getV_same (x : Nibble) (b : Byte) : (s.setV x b).getV x = b := by simp [setV_getV]

theorem setV_getV_other {x y : Nibble} (b : Byte) (h : x ≠ y) : (s.setV x b).getV y = s.getV y := by
  simp [setV_getV, h]

/-- The bytes of V[0..n-1], one by one. -/
@[simp] theorem length_firstVs (n : Nat) : (s.firstVs n).length = n := by simp [firstVs]

@[simp] theorem getElem_firstVs (n j : Nat) (h : j < (s.firstVs n).length) :
    (s.firstVs n)[j] = s.getV (BitVec.ofNat 4 j) := by simp [firstVs]

/-- Writing registers from k on: the one at place j gets byte j - k, every other stays. -/
theorem setVs_getV (k : Nat) (bs : List Byte) (h : k + bs.length ≤ 16) (y : Nibble) :
    (s.setVs k bs).getV y = if k ≤ y.toNat then (bs[y.toNat - k]?).getD (s.getV y) else s.getV y := by
  induction bs generalizing s k with
  | nil => simp [setVs]
  | cons b bs ih =>
    simp only [List.length_cons] at h
    rw [setVs, ih _ (k + 1) (by omega)]
    have hk : (BitVec.ofNat 4 k).toNat = k := nibble_ofNat_toNat (by omega)
    by_cases h1 : k + 1 ≤ y.toNat
    · obtain ⟨d, hd⟩ : ∃ d, y.toNat = k + 1 + d := ⟨y.toNat - (k + 1), by omega⟩
      have hne : BitVec.ofNat 4 k ≠ y := by
        intro e
        rw [← e, hk] at h1
        omega
      rw [if_pos h1, if_pos (by omega), setV_getV_other _ _ hne, hd,
        show k + 1 + d - (k + 1) = d by omega, show k + 1 + d - k = d + 1 by omega]
      simp
    · rw [if_neg h1, setV_getV]
      by_cases h2 : k = y.toNat
      · have e : BitVec.ofNat 4 k = y := by
          apply BitVec.eq_of_toNat_eq
          rw [hk, h2]
        rw [if_pos e, if_pos (by omega), h2]
        simp
      · have hne : BitVec.ofNat 4 k ≠ y := fun e => h2 (by rw [← e, hk])
        rw [if_neg hne, if_neg (by omega)]

/-- Writing registers writes no other field. -/
theorem setVs_eq (k : Nat) (bs : List Byte) : s.setVs k bs = { s with v := (s.setVs k bs).v } := by
  induction bs generalizing s k with
  | nil => rfl
  | cons b bs ih =>
    rw [setVs, ih]
    rfl

/-! ### The flag writes (10_state.md R15) -/

/-- WriteWithFlag writes no field but V. -/
theorem writeWithFlag_eq (d : Nibble) (r f : Byte) : s.writeWithFlag d r f = { s with v := (s.writeWithFlag d r f).v } := by
  unfold writeWithFlag
  split <;> rfl

/-- A register neither the destination nor VF is untouched. -/
theorem writeWithFlag_getV_other (d : Nibble) (r f : Byte) {y : Nibble} (hd : d ≠ y) (hf : VF ≠ y) :
    (s.writeWithFlag d r f).getV y = s.getV y := by
  unfold writeWithFlag
  split <;> simp [setV_getV, hd, hf]

/-- A destination other than VF holds the result. -/
theorem writeWithFlag_getV_dest {d : Nibble} (r f : Byte) (hd : d ≠ VF) : (s.writeWithFlag d r f).getV d = r := by
  unfold writeWithFlag
  split <;> simp [setV_getV, hd.symm]

/-- VF holds the flag where it is not the destination too. -/
theorem writeWithFlag_getV_flag {d : Nibble} (r f : Byte) (hd : d ≠ VF) : (s.writeWithFlag d r f).getV VF = f := by
  unfold writeWithFlag
  split <;> simp [setV_getV, hd]

/-- VF as destination: the write that comes last wins (P_FLAG_ORDER). -/
theorem writeWithFlag_getV_VF (r f : Byte) :
    (s.writeWithFlag VF r f).getV VF = match s.params.flagOrder with | .flagLast => f | .dataLast => r := by
  unfold writeWithFlag
  split <;> simp [*]

/-- WriteWithFlag with destination I writes I and VF, in an order that does not matter. -/
theorem writeIWithFlag_eq (r : Word) (f : Byte) : s.writeIWithFlag r f = (s.setI r).setV VF f := by
  unfold writeIWithFlag
  split <;> rfl

/-! ### Skip (40_cycle.md R78) -/

/-- A skip writes the pc and nothing else. -/
theorem skipIf_eq (c : Bool) : s.skipIf c = s.setPc (if c then s.pc + 2 else s.pc) := by
  cases c <;> rfl

/-! ### Push and pop (10_state.md R20) -/

theorem push_full (w : Word) (h : s.sp.val = 16) : s.push w = none := by simp [push, h]

/-- A push onto a stack with room: the entry at the old sp is written, sp is one more, nothing else changes. -/
theorem push_eq (w : Word) (h : s.sp.val < 16) :
    s.push w = some { s with stack := s.stack.set s.sp.val w h, sp := ⟨s.sp.val + 1, by omega⟩ } := by
  simp [push, h]

theorem pop_empty (h : s.sp.val = 0) : s.pop = none := by simp [pop, h]

/-- A pop from a stack in use: the entry below sp, sp one less, nothing else changed. -/
theorem pop_eq (h : 0 < s.sp.val) :
    s.pop = some (s.stack[s.sp.val - 1]'(by omega), { s with sp := ⟨s.sp.val - 1, by omega⟩ }) := by
  simp [pop, h]

end State

/-! ### Bounds checks (20_memory.md R46, R47) -/

theorem checkRange_eq_none (base : Word) (len : Nat) : checkRange base len = none ↔ (len = 0 ∨ base.toNat + len ≤ 0x1000) := by
  unfold checkRange
  split
  · simp
    omega
  · simp
    omega

theorem checkRange_eq_some (base : Word) (len : Nat) (c : Cause) :
    checkRange base len = some c ↔ (c = .memoryBoundsError base len ∧ 0 < len ∧ 0x1000 < base.toNat + len) := by
  unfold checkRange
  split
  · simp only [Option.some.injEq, eq_comm (b := c), iff_self_and]
    omega
  · simp
    omega

theorem checkLowWrite_eq_none (p : Params) (base : Word) (len : Nat) :
    checkLowWrite p base len = none ↔ (p.lowMemoryWrites = .allow ∨ len = 0 ∨ 0x200 ≤ base.toNat) := by
  unfold checkLowWrite
  cases hp : p.lowMemoryWrites <;> simp [Config.programBase]
  omega

/-- The check of a store passes exactly where the whole range exists and, under fault, starts at 0x200 or above. -/
theorem checkStore_eq_none (p : Params) (base : Word) (len : Nat) :
    checkStore p base len = none ↔
      (len = 0 ∨ base.toNat + len ≤ 0x1000) ∧ (p.lowMemoryWrites = .allow ∨ len = 0 ∨ 0x200 ≤ base.toNat) := by
  rw [checkStore, Option.or_eq_none_iff, checkRange_eq_none, checkLowWrite_eq_none]

/-- The one fault a store's checks can raise names the whole access. -/
theorem checkStore_eq_some {p : Params} {base : Word} {len : Nat} {c : Cause} (h : checkStore p base len = some c) :
    c = .memoryBoundsError base len ∧ 0 < len ∧
      (0x1000 < base.toNat + len ∨ p.lowMemoryWrites = .fault ∧ base.toNat < 0x200) := by
  unfold checkStore at h
  cases hr : checkRange base len with
  | some c' =>
    rw [hr] at h
    obtain ⟨h1, h2, h3⟩ := (checkRange_eq_some base len c').1 hr
    simp only [Option.some_or, Option.some.injEq] at h
    exact ⟨h ▸ h1, h2, .inl h3⟩
  | none =>
    rw [hr] at h
    simp only [Option.none_or, checkLowWrite, Option.ite_none_right_eq_some, Option.some.injEq] at h
    exact ⟨h.2.symm, h.1.2.1, .inr ⟨h.1.1, h.1.2.2⟩⟩

/-- A guarded rest runs where its check passes. -/
theorem guarded_none (s : State) (i : Instr) {k : Option Cause} (rest : State) (h : k = none) :
    guarded s i k rest = .next rest := by simp [guarded, h]

/-- A guarded rest is not run where its check faults. -/
theorem guarded_some (s : State) (i : Instr) {k : Option Cause} {c : Cause} (rest : State) (h : k = some c) :
    guarded s i k rest = .next (s.raiseFault i c) := by simp [guarded, h]

/-! ### Framebuffer cells (10_state.md R24) -/

theorem cellIndex_inj {y y' : Fin 32} {x x' : Fin 64} : cellIndex y x = cellIndex y' x' ↔ y = y' ∧ x = x' := by
  unfold cellIndex
  constructor
  · intro h
    constructor <;> apply Fin.ext <;> omega
  · rintro ⟨rfl, rfl⟩
    rfl

/-- A cell written holds what was written, and every other cell what it held. -/
theorem cell_setCell (fb : Framebuffer) (y : Fin 32) (x : Fin 64) (b : Bool) (y' : Fin 32) (x' : Fin 64) :
    cell (setCell fb y x b) y' x' = if y = y' ∧ x = x' then b else cell fb y' x' := by
  simp only [cell, setCell, Vector.getElem_set, cellIndex_inj]

@[simp] theorem cell_clearFb (y : Fin 32) (x : Fin 64) : cell clearFb y x = false := by
  simp [cell, clearFb]

/-- Two framebuffers with the same cells are equal. -/
theorem framebuffer_ext {f g : Framebuffer} (h : ∀ y x, cell f y x = cell g y x) : f = g := by
  apply Vector.ext
  intro j hj
  have := h ⟨j / 64, by omega⟩ ⟨j % 64, by omega⟩
  have e : cellIndex ⟨j / 64, by omega⟩ ⟨j % 64, by omega⟩ = j := by
    simp only [cellIndex]
    omega
  simpa only [cell, e] using this

end Sys2Proof.Machine
end

