-- ==== Sys2Proof/Laws/Draw.lean ====
section
/-! SUPPORT. What a draw does to the framebuffer and to the collision unit: the loops of R115 toggle the cells of one list of
places, no place twice (R114: "no draw touches one cell twice"). -/

namespace Sys2Proof.Machine

/-- A place on the screen. -/
abbrev Place := Fin 32 × Fin 64

/-- Toggle the cells of a list of places, in order. -/
def toggleAll (k : Canvas) (L : List Place) : Canvas := L.foldl (fun k q => toggleCell k q.1 q.2) k

theorem cell_toggleCell (k : Canvas) (y : Fin 32) (x : Fin 64) (q : Place) :
    cell (toggleCell k y x).1 q.1 q.2 = (cell k.1 q.1 q.2 ^^ decide (q = (y, x))) := by
  simp only [toggleCell, cell_setCell, Prod.ext_iff]
  by_cases h : y = q.1 ∧ x = q.2
  · obtain ⟨rfl, rfl⟩ := h
    simp
  · rw [if_neg h]
    have : ¬(q.1 = y ∧ q.2 = x) := fun e => h ⟨e.1.symm, e.2.symm⟩
    simp [this]

/-- Toggling distinct places: each of them is inverted, the rest stays. -/
theorem cell_toggleAll (k : Canvas) (L : List Place) (hL : L.Nodup) (q : Place) :
    cell (toggleAll k L).1 q.1 q.2 = (cell k.1 q.1 q.2 ^^ decide (q ∈ L)) := by
  induction L generalizing k with
  | nil => simp [toggleAll]
  | cons a L ih =>
    obtain ⟨h1, h2⟩ := List.nodup_cons.1 hL
    have := ih (toggleCell k a.1 a.2) h2
    simp only [toggleAll, List.foldl_cons] at this ⊢
    rw [this, cell_toggleCell]
    by_cases e : q = a
    · subst e
      simp [h1]
    · simp [e]

/-- Toggling distinct places: the collision unit tells whether one of them was on (R116). -/
theorem hit_toggleAll (k : Canvas) (L : List Place) (hL : L.Nodup) :
    (toggleAll k L).2 = (k.2 || L.any fun q => cell k.1 q.1 q.2) := by
  induction L generalizing k with
  | nil => simp [toggleAll]
  | cons a L ih =>
    obtain ⟨h1, h2⟩ := List.nodup_cons.1 hL
    have := ih (toggleCell k a.1 a.2) h2
    simp only [toggleAll, List.foldl_cons] at this ⊢
    rw [this]
    have e : (L.any fun q => cell (toggleCell k a.1 a.2).1 q.1 q.2) = L.any fun q => cell k.1 q.1 q.2 := by
      rw [Bool.eq_iff_iff, List.any_eq_true, List.any_eq_true]
      refine exists_congr fun q => and_congr_right fun hq => ?_
      have hne : ¬q = (a.1, a.2) := fun e => h1 (by rw [← show q = a from e]; exact hq)
      rw [cell_toggleCell, decide_eq_false hne]
      simp
    rw [e]
    simp [toggleCell, Bool.or_assoc]

/-! ### The places a sprite toggles -/

/-- The places of one sprite row on screen row y. -/
def rowPlaces (p : Params) (b : Byte) (x0 : Fin 64) (y : Fin 32) : List Place :=
  ((List.range 8).filter (spriteBit p b)).map fun c => (y, screenColumn x0 c)

/-- The places of the sprite rows from row r on. -/
def spritePlaces (p : Params) (x0 : Fin 64) (y0 : Fin 32) : Nat → List Byte → List Place
  | _, [] => []
  | r, b :: bs =>
    (match screenRow p y0 r with
      | none => []
      | some y => rowPlaces p b x0 y) ++ spritePlaces p x0 y0 (r + 1) bs

theorem drawRow_eq (p : Params) (b : Byte) (x0 : Fin 64) (y : Fin 32) (k : Canvas) :
    drawRow p b x0 y k = toggleAll k (rowPlaces p b x0 y) := by
  simp only [drawRow, toggleAll, rowPlaces, List.foldl_map, List.foldl_filter]
  rfl

/-- The loops of R115 toggle exactly the sprite's places. -/
theorem drawRows_eq (p : Params) (x0 : Fin 64) (y0 : Fin 32) (r : Nat) (bs : List Byte) (k : Canvas) :
    drawRows p x0 y0 r bs k = toggleAll k (spritePlaces p x0 y0 r bs) := by
  induction bs generalizing r k with
  | nil => rfl
  | cons b bs ih =>
    simp only [drawRows, spritePlaces]
    cases screenRow p y0 r with
    | none => simpa using ih (r + 1) k
    | some y =>
      simp only [ih, drawRow_eq]
      simp [toggleAll, List.foldl_append]

theorem screenColumn_inj {x0 : Fin 64} {c d : Nat} (hc : c < 8) (hd : d < 8) (h : screenColumn x0 c = screenColumn x0 d) :
    c = d := by
  have := congrArg Fin.val h
  simp only [screenColumn, Fin.ofNat] at this
  omega

theorem screenRow_val {p : Params} {y0 : Fin 32} {r : Nat} {y : Fin 32} (h : screenRow p y0 r = some y) :
    y.val = (y0.val + r) % 32 := by
  unfold screenRow at h
  split at h
  · simp only [Option.some.injEq] at h
    rw [← h]
    simp only
    omega
  · split at h
    · simp at h
    · simp only [Option.some.injEq] at h
      rw [← h]
      rfl

/-- The bit the draw loops test is the one R114 numbers. -/
theorem spriteBit_iff (p : Params) (b : Byte) (c : Nat) : spriteBit p b c = true ↔ SetsColumn p b c := by
  unfold spriteBit SetsColumn
  cases p.spriteBitOrder <;> simp

/-- Where sprite row r goes: onto the screen as it is, or around it under wrap (R114). -/
theorem screenRow_eq_some {p : Params} {y0 : Fin 32} {r : Nat} {y : Fin 32} :
    screenRow p y0 r = some y ↔
      y.val = y0.val + r ∨ p.drawVertical = .wrap ∧ 32 ≤ y0.val + r ∧ y.val = (y0.val + r) % 32 := by
  have hy := y.isLt
  unfold screenRow
  by_cases h : y0.val + r < 32
  · rw [dif_pos h]
    simp only [Option.some.injEq, Fin.ext_iff]
    omega
  · rw [dif_neg h]
    cases e : p.drawVertical
    · simp
      omega
    · simp only [Option.some.injEq, Fin.ext_iff, Fin.ofNat, true_and]
      omega

@[simp] theorem spriteX_val (b : Byte) : (spriteX b).val = b.toNat % 64 := rfl
@[simp] theorem spriteY_val (b : Byte) : (spriteY b).val = b.toNat % 32 := rfl

theorem mem_rowPlaces {p : Params} {b : Byte} {x0 : Fin 64} {y : Fin 32} {q : Place} :
    q ∈ rowPlaces p b x0 y ↔ q.1 = y ∧ ∃ c, c < 8 ∧ spriteBit p b c = true ∧ screenColumn x0 c = q.2 := by
  simp only [rowPlaces, List.mem_map, List.mem_filter, List.mem_range, Prod.ext_iff]
  constructor
  · rintro ⟨c, ⟨hc, hb⟩, h1, h2⟩
    exact ⟨h1.symm, c, hc, hb, h2⟩
  · rintro ⟨h1, c, hc, hb, h2⟩
    exact ⟨c, ⟨hc, hb⟩, h1.symm, h2⟩

/-- A place is toggled where a set sprite bit lands on it. -/
theorem mem_spritePlaces {p : Params} {x0 : Fin 64} {y0 : Fin 32} {r : Nat} {bs : List Byte} {q : Place} :
    q ∈ spritePlaces p x0 y0 r bs ↔
      ∃ j, ∃ h : j < bs.length, ∃ c, c < 8 ∧ spriteBit p bs[j] c = true ∧ screenRow p y0 (r + j) = some q.1 ∧
        screenColumn x0 c = q.2 := by
  induction bs generalizing r with
  | nil => simp [spritePlaces]
  | cons b bs ih =>
    simp only [spritePlaces, List.mem_append, ih]
    constructor
    · rintro (h | ⟨j, hj, c, hc, hb, hy, hx⟩)
      · split at h
        · simp at h
        · rename_i y hy
          obtain ⟨h1, c, hc, hb, hx⟩ := mem_rowPlaces.1 h
          exact ⟨0, by simp, c, hc, hb, by simpa [h1] using hy, hx⟩
      · exact ⟨j + 1, by simpa using hj, c, hc, hb, by rw [← hy, Nat.add_right_comm, Nat.add_assoc], hx⟩
    · rintro ⟨j, hj, c, hc, hb, hy, hx⟩
      cases j with
      | zero =>
        refine .inl ?_
        rw [Nat.add_zero] at hy
        rw [hy]
        exact mem_rowPlaces.2 ⟨rfl, c, hc, hb, hx⟩
      | succ j =>
        exact .inr ⟨j, by simpa using hj, c, hc, hb, by rw [← hy, Nat.add_right_comm, Nat.add_assoc], hx⟩

/-- No draw touches one cell twice (R114), whichever way rows below the screen go. -/
theorem nodup_spritePlaces (p : Params) (x0 : Fin 64) (y0 : Fin 32) (r : Nat) (bs : List Byte) (h : bs.length ≤ 32) :
    (spritePlaces p x0 y0 r bs).Nodup := by
  induction bs generalizing r with
  | nil => simp [spritePlaces]
  | cons b bs ih =>
    simp only [List.length_cons] at h
    rw [spritePlaces, List.nodup_append]
    refine ⟨?_, ih (r + 1) (by omega), ?_⟩
    · split
      · simp
      · refine List.Nodup.map_on ?_ (List.nodup_range.filter _)
        intro c hc d hd e
        simp only [List.mem_filter, List.mem_range] at hc hd
        exact screenColumn_inj hc.1 hd.1 (Prod.ext_iff.1 e).2
    · intro q hq q' hq' e
      subst e
      split at hq
      · simp at hq
      · rename_i y hy
        obtain ⟨j, hj, _, _, _, hy', _⟩ := mem_spritePlaces.1 hq'
        have e1 := screenRow_val hy
        have e2 := screenRow_val hy'
        rw [(mem_rowPlaces.1 hq).1] at e2
        omega

end Sys2Proof.Machine
end

