-- ==== Sys2Proof/Laws/Step.lean ====
section
/-! SUPPORT. What a step can do, said once: which event it runs, and how a cycle can end. -/

namespace Sys2Proof.Machine

variable {s c t : State}

/-! ### What the sampling of inputs leaves -/

theorem BeginsCycle_pc (h : s.BeginsCycle c) : c.pc = s.pc := by
  rcases h with ⟨_, rfl⟩ | ⟨_, _, _, _, rfl⟩ <;> rfl

theorem BeginsCycle_status (h : s.BeginsCycle c) : c.status = s.status := by
  rcases h with ⟨_, rfl⟩ | ⟨_, _, _, _, rfl⟩ <;> rfl

theorem BeginsCycle_readByte (h : s.BeginsCycle c) (a : Nat) : c.readByte a = s.readByte a := by
  rcases h with ⟨_, rfl⟩ | ⟨_, _, _, _, rfl⟩ <;> rfl

theorem BeginsCycle_fetchWord (h : s.BeginsCycle c) : c.fetchWord = s.fetchWord := by
  rcases h with ⟨_, rfl⟩ | ⟨_, _, _, _, rfl⟩ <;> rfl

theorem BeginsCycle_displayUpdate (h : s.BeginsCycle c) : c.displayUpdate = false := by
  rcases h with ⟨_, rfl⟩ | ⟨_, _, _, _, rfl⟩ <;> rfl

theorem BeginsCycle_started (h : s.BeginsCycle c) : c.env.started = true := by
  rcases h with ⟨_, rfl⟩ | ⟨_, _, _, _, rfl⟩ <;> rfl

/-- The start of a cycle writes nothing but the environment's side and the output display_update. -/
theorem BeginsCycle_eq (h : s.BeginsCycle c) : c = { s with displayUpdate := false, env := c.env } := by
  rcases h with ⟨_, rfl⟩ | ⟨_, _, _, _, rfl⟩ <;> rfl

/-! ### Which event a step runs -/

theorem step_cycle (h : s.BeginsCycle c) : step s = cycle c := by
  rcases h with ⟨he, rfl⟩ | ⟨_, _, _, he, rfl⟩ <;> simp [step, runEvent, he]

theorem step_tick {rest : List Event} (h : s.env.events = .tick :: rest) : step s = .next s.dropEvent.tick := by
  simp [step, runEvent, h]

theorem step_reset {rest : List Event} (h : s.env.events = .reset :: rest) : step s = .next s.dropEvent.resetEvent := by
  simp [step, runEvent, h]

theorem step_load {rest : List Event} {image : List Byte} (h : s.env.events = .load image :: rest) :
    step s = loadEvent s.dropEvent image := by
  simp [step, runEvent, h]

/-- Every state's next event is a cycle, a tick, a reset or a load. -/
theorem event_cases (s : State) :
    (∃ c, s.BeginsCycle c) ∨ (∃ rest, s.env.events = .tick :: rest) ∨ (∃ rest, s.env.events = .reset :: rest) ∨
      ∃ image rest, s.env.events = .load image :: rest := by
  cases he : s.env.events with
  | nil => exact .inl ⟨_, .inl ⟨he, rfl⟩⟩
  | cons e rest =>
    cases e with
    | cycle keys rnd => exact .inl ⟨_, .inr ⟨keys, rnd, rest, he, rfl⟩⟩
    | tick => exact .inr (.inl ⟨rest, rfl⟩)
    | reset => exact .inr (.inr (.inl ⟨rest, rfl⟩))
    | load image => exact .inr (.inr (.inr ⟨image, rest, rfl⟩))

/-- A step that answers a next state ran a cycle, a tick, a reset, or a load before the first cycle. -/
theorem step_next_cases (h : step s = .next t) :
    (∃ c, s.BeginsCycle c ∧ cycle c = .next t) ∨
      (∃ rest, s.env.events = .tick :: rest ∧ t = s.dropEvent.tick) ∨
      (∃ rest, s.env.events = .reset :: rest ∧ t = s.dropEvent.resetEvent) ∨
      ∃ image rest, s.env.events = .load image :: rest ∧ s.env.started = false ∧ t = s.dropEvent.load image := by
  rcases event_cases s with ⟨c, hc⟩ | ⟨rest, he⟩ | ⟨rest, he⟩ | ⟨image, rest, he⟩
  · exact .inl ⟨c, hc, by rw [← step_cycle hc, h]⟩
  · rw [step_tick he] at h
    exact .inr (.inl ⟨rest, he, (Host.Outcome.next.inj h).symm⟩)
  · rw [step_reset he] at h
    exact .inr (.inr (.inl ⟨rest, he, (Host.Outcome.next.inj h).symm⟩))
  · rw [step_load he, loadEvent, State.dropEvent_env] at h
    cases hs : s.env.started with
    | true => simp [hs] at h
    | false =>
      simp only [hs] at h
      exact .inr (.inr (.inr ⟨image, rest, he, rfl, (Host.Outcome.next.inj h).symm⟩))

/-! ### How a cycle can end (40_cycle.md R83, 60_exceptions.md R130) -/

theorem cycle_terminal (h : c.status.Terminal) : cycle c = .next c := by
  unfold cycle
  cases hs : c.status <;> simp_all [Status.Terminal]

theorem cycle_awaiting {x : Nibble} (h : c.status = .awaitingKey x) : cycle c = .next (c.waitPoll x) := by
  simp [cycle, h]

theorem cycle_halts (h : c.status = .running) (hp : 0x1000 ≤ c.pc.toNat) : cycle c = .next (c.setStatus .halted) := by
  simp [cycle, h, Config.memSize, hp]

theorem cycle_fetch_faults (h : c.status = .running) (hp : c.pc.toNat = 0xFFF) :
    cycle c = .next (c.takeFault (.memoryBoundsError c.pc 2) c.pc none) := by
  have hk : checkRange c.pc 2 = some (.memoryBoundsError c.pc 2) := (checkRange_eq_some _ _ _).2 ⟨rfl, by omega, by omega⟩
  simp [cycle, h, Config.memSize, hp, fetchAndRun, hk]

theorem cycle_fetches (h : c.Fetches) :
    cycle c = match decode c.fetchWord with
      | .failure w => .next (c.takeFault .decodeError c.pc (some w))
      | .op i => exec i c.advance := by
  have hk : checkRange c.pc 2 = none := (checkRange_eq_none _ _).2 (by have := h.2; omega)
  have hp : ¬c.pc.toNat ≥ Config.memSize := by
    have := h.2
    simp only [Config.memSize]
    omega
  cases hd : decode c.fetchWord <;> simp [cycle, h.1, hp, fetchAndRun, hk, hd]

theorem cycle_decode_faults {w : Word} (h : c.Fetches) (hd : decode c.fetchWord = .failure w) :
    cycle c = .next (c.takeFault .decodeError c.pc (some w)) := by
  rw [cycle_fetches h, hd]

theorem cycle_executes {i : Instr} (h : c.Fetches) (hd : decode c.fetchWord = .op i) : cycle c = exec i c.advance := by
  rw [cycle_fetches h, hd]

/-- A cycle that answers a next state ended in one of these ways (R130's order of checks). -/
theorem cycle_next_cases (h : cycle c = .next t) :
    (c.status.Terminal ∧ t = c) ∨
      (∃ x, c.status = .awaitingKey x ∧ t = c.waitPoll x) ∨
      (c.status = .running ∧ 0x1000 ≤ c.pc.toNat ∧ t = c.setStatus .halted) ∨
      (c.status = .running ∧ c.pc.toNat = 0xFFF ∧ t = c.takeFault (.memoryBoundsError c.pc 2) c.pc none) ∨
      (∃ w, c.Fetches ∧ decode c.fetchWord = .failure w ∧ t = c.takeFault .decodeError c.pc (some w)) ∨
      ∃ i, c.Fetches ∧ decode c.fetchWord = .op i ∧ exec i c.advance = .next t := by
  cases hs : c.status with
  | halted =>
    have ht : c.status.Terminal := by simp [hs, Status.Terminal]
    rw [cycle_terminal ht] at h
    exact .inl ⟨by simp [Status.Terminal], (Host.Outcome.next.inj h).symm⟩
  | faulted f =>
    have ht : c.status.Terminal := by simp [hs, Status.Terminal]
    rw [cycle_terminal ht] at h
    exact .inl ⟨by simp [Status.Terminal], (Host.Outcome.next.inj h).symm⟩
  | awaitingKey x =>
    rw [cycle_awaiting hs] at h
    exact .inr (.inl ⟨x, rfl, (Host.Outcome.next.inj h).symm⟩)
  | running =>
    refine .inr (.inr ?_)
    by_cases h1 : 0x1000 ≤ c.pc.toNat
    · rw [cycle_halts hs h1] at h
      exact .inl ⟨rfl, h1, (Host.Outcome.next.inj h).symm⟩
    · by_cases h2 : c.pc.toNat = 0xFFF
      · rw [cycle_fetch_faults hs h2] at h
        exact .inr (.inl ⟨rfl, h2, (Host.Outcome.next.inj h).symm⟩)
      · have hf : c.Fetches := ⟨hs, by omega⟩
        refine .inr (.inr ?_)
        cases hd : decode c.fetchWord with
        | failure w =>
          rw [cycle_decode_faults hf hd] at h
          exact .inl ⟨w, hf, rfl, (Host.Outcome.next.inj h).symm⟩
        | op i =>
          rw [cycle_executes hf hd] at h
          exact .inr ⟨i, hf, rfl, h⟩

end Sys2Proof.Machine
end

