-- ==== Sys2Proof/Laws/Frames.lean ====
section
/-! SUPPORT. The frame of every shared operation: which pieces of the state it can change. -/

namespace Sys2Proof.Machine

theorem Piece.same_refl (p : Piece) (s : State) : p.Same s s := by cases p <;> rfl

theorem Piece.same_trans {p : Piece} {s t u : State} (h : p.Same s t) (k : p.Same t u) : p.Same s u := by
  cases p <;> exact Eq.trans k h

section
variable {P Q : Piece → Prop} {s t u : State}

theorem ChangesOnlyWhere.refl (s : State) : ChangesOnlyWhere P s s := fun p _ => p.same_refl s

theorem ChangesOnlyWhere.mono (h : ChangesOnlyWhere P s t) (k : ∀ p, P p → Q p) : ChangesOnlyWhere Q s t :=
  fun p hp => h p fun hP => hp (k p hP)

theorem ChangesOnlyWhere.trans (h : ChangesOnlyWhere P s t) (k : ChangesOnlyWhere P t u) : ChangesOnlyWhere P s u :=
  fun p hp => p.same_trans (h p hp) (k p hp)
end

variable (s : State)

/-! ### The plain updates -/

theorem setV_frame (x : Nibble) (b : Byte) : ChangesOnly [.v x] s (s.setV x b) := by
  intro p hp
  cases p with
  | v y => exact s.setV_getV_other b fun e => hp (by simp [e])
  | _ => rfl

theorem setI_frame (w : Word) : ChangesOnly [.I] s (s.setI w) := by
  intro p hp
  cases p <;> first | rfl | exact absurd List.mem_cons_self hp

theorem setPc_frame (w : Word) : ChangesOnly [.pc] s (s.setPc w) := by
  intro p hp
  cases p <;> first | rfl | exact absurd List.mem_cons_self hp

theorem setDt_frame (b : Byte) : ChangesOnly [.dt] s (s.setDt b) := by
  intro p hp
  cases p <;> first | rfl | exact absurd List.mem_cons_self hp

theorem setSt_frame (b : Byte) : ChangesOnly [.st] s (s.setSt b) := by
  intro p hp
  cases p <;> first | rfl | exact absurd List.mem_cons_self hp

theorem setStatus_frame (q : Status) : ChangesOnly [.status] s (s.setStatus q) := by
  intro p hp
  cases p <;> first | rfl | exact absurd List.mem_cons_self hp

theorem setKlatch_frame (w : Word) : ChangesOnly [.klatch] s (s.setKlatch w) := by
  intro p hp
  cases p <;> first | rfl | exact absurd List.mem_cons_self hp

theorem showFb_frame (k : Framebuffer) :
    ChangesOnlyWhere (fun p => p = .displayUpdate ∨ ∃ y x, p = .cell y x) s (s.showFb k) := by
  intro p hp
  cases p with
  | displayUpdate => exact absurd (.inl rfl) hp
  | cell y x => exact absurd (.inr ⟨y, x, rfl⟩) hp
  | _ => rfl

theorem dropEvent_frame : ChangesOnly [.env] s s.dropEvent := by
  intro p hp
  cases p <;> first | rfl | exact absurd List.mem_cons_self hp

/-- Bytes stored change only the bytes they are stored to. -/
theorem storeBytes_frame (a : Nat) (bs : List Byte) :
    ChangesOnlyWhere (fun p => ∃ j, j < bs.length ∧ p = .byte (a + j)) s (s.storeBytes a bs) := by
  intro p hp
  cases p with
  | byte z =>
    simp only [Piece.Same, State.storeBytes_readByte]
    split
    · rename_i h
      rw [List.getElem?_eq_none]
      · rfl
      · by_contra hz
        exact hp ⟨z - a, by omega, by rw [Nat.add_sub_cancel' h]⟩
    · rfl
  | _ => rfl

/-- The registers written from k on are the only change. -/
theorem setVs_frame (k : Nat) (bs : List Byte) (h : k + bs.length ≤ 16) :
    ChangesOnlyWhere (fun p => ∃ y : Nibble, k ≤ y.toNat ∧ y.toNat < k + bs.length ∧ p = .v y) s (s.setVs k bs) := by
  intro p hp
  cases p with
  | v y =>
    simp only [Piece.Same, s.setVs_getV k bs h]
    split
    · rename_i hy
      rw [List.getElem?_eq_none]
      · rfl
      · by_contra hz
        exact hp ⟨y, hy, by omega, rfl⟩
    · rfl
  | _ =>
    rw [s.setVs_eq k bs]
    rfl

/-! ### Flag writes, skip, push and pop, faults -/

theorem writeWithFlag_frame (d : Nibble) (r f : Byte) : ChangesOnly [.v d, .v VF] s (s.writeWithFlag d r f) := by
  intro p hp
  cases p with
  | v y =>
    exact s.writeWithFlag_getV_other d r f (fun e => hp (by simp [e])) (fun e => hp (by simp [← e]))
  | _ =>
    rw [s.writeWithFlag_eq d r f]
    rfl

theorem writeIWithFlag_frame (r : Word) (f : Byte) : ChangesOnly [.I, .v VF] s (s.writeIWithFlag r f) := by
  rw [s.writeIWithFlag_eq r f]
  exact ((setI_frame s r).mono (by simp)).trans ((setV_frame (s.setI r) VF f).mono (by simp))

theorem skipIf_frame (c : Bool) : ChangesOnly [.pc] s (s.skipIf c) := by
  rw [s.skipIf_eq c]
  exact setPc_frame s _

theorem takeFault_frame (c : Cause) (A : Word) (w : Option Word) :
    ChangesOnly [.status, .pc, .displayUpdate] s (s.takeFault c A w) := by
  intro p hp
  cases p <;> first | rfl | exact absurd (by simp) hp

theorem raiseFault_frame (i : Instr) (c : Cause) : ChangesOnly [.status, .pc, .displayUpdate] s (s.raiseFault i c) :=
  takeFault_frame s c _ _

theorem push_frame {w : Word} (h : s.sp.val < 16) {t : State} (k : s.push w = some t) :
    ChangesOnly [.sp, .stackEntry ⟨s.sp.val, h⟩] s t := by
  rw [s.push_eq w h, Option.some.injEq] at k
  subst k
  intro p hp
  cases p with
  | stackEntry j =>
    have hj : s.sp.val ≠ j.val := fun e => hp (by simp [e])
    exact Vector.getElem_set_ne h j.isLt hj
  | sp => exact absurd (by simp) hp
  | _ => rfl

theorem pop_frame {w : Word} {t : State} (k : s.pop = some (w, t)) : ChangesOnly [.sp] s t := by
  unfold State.pop at k
  split at k
  · simp only [Option.some.injEq, Prod.mk.injEq] at k
    rw [← k.2]
    intro p hp
    cases p <;> first | rfl | exact absurd (by simp) hp
  · simp at k

/-! ### A draw, a key poll, the start of a cycle -/

theorem draw_frame (x y n : Nibble) :
    ChangesOnlyWhere (fun p => p = .displayUpdate ∨ p = .v VF ∨ ∃ row col, p = .cell row col) s (s.draw x y n) := by
  refine ((showFb_frame s _).mono ?_).trans ((setV_frame _ VF _).mono ?_)
  · rintro p (h | h)
    · exact .inl h
    · exact .inr (.inr h)
  · intro p h
    exact .inr (.inl (by simpa using h))

theorem waitPoll_frame (x : Nibble) : ChangesOnly [.v x, .status, .klatch] s (s.waitPoll x) := by
  unfold State.waitPoll
  split
  · exact (setKlatch_frame s _).mono (by simp)
  · exact (((setV_frame s x _).mono (by simp)).trans ((setKlatch_frame _ _).mono (by simp))).trans
      ((setStatus_frame _ _).mono (by simp))

theorem tick_frame : ChangesOnly [.dt, .st] s s.tick := by
  unfold State.tick
  split
  · exact ((setDt_frame s _).mono (by simp)).trans ((setSt_frame _ _).mono (by simp))
  · exact ((setDt_frame s _).mono (by simp)).trans ((setSt_frame _ _).mono (by simp))
  · exact .refl s
  · exact .refl s

theorem BeginsCycle_frame {s c : State} (h : s.BeginsCycle c) : ChangesOnly [.displayUpdate, .env] s c := by
  intro p hp
  rcases h with ⟨_, rfl⟩ | ⟨_, _, _, _, rfl⟩ <;> cases p <;> first | rfl | exact absurd (by simp) hp

end Sys2Proof.Machine
end

