-- ==== Sys2Proof/Laws/Exec.lean ====
section
/-! SUPPORT. What an instruction can change, said once for all 34, and when it can fault; whole-machine claims cite these instead
of unfolding exec. -/

namespace Sys2Proof.Machine

/-- The pieces a fault writes. -/
abbrev faultPieces : List Piece := [.status, .pc, .displayUpdate]

/-- The pieces an instruction may change, faults included. -/
def MayChange (i : Instr) (s : State) (p : Piece) : Prop :=
  match i with
  | .cls => p = .displayUpdate ∨ ∃ y x, p = .cell y x
  | .ret => p ∈ faultPieces ∨ p = .sp
  | .jp _ | .jpV0 _ | .seImm _ _ | .sneImm _ _ | .seReg _ _ | .sneReg _ _ | .skp _ | .sknp _ => p = .pc
  | .call _ => p ∈ faultPieces ∨ p = .sp ∨ ∃ j, p = .stackEntry j
  | .ldImm x _ | .addImm x _ | .ldReg x _ | .or x _ | .and x _ | .xor x _ | .rnd x _ | .ldVxDt x => p = .v x
  | .addReg x _ | .sub x _ | .shr x _ | .subn x _ | .shl x _ => p = .v x ∨ p = .v VF
  | .ldI _ | .ldFVx _ => p = .I
  | .addIVx _ => p = .I ∨ p = .v VF
  | .drw _ _ _ => p ∈ faultPieces ∨ p = .v VF ∨ ∃ row col, p = .cell row col
  | .ldVxK _ => p = .klatch ∨ p = .status
  | .ldDtVx _ => p = .dt
  | .ldStVx _ => p = .st
  | .ldBVx _ => p ∈ faultPieces ∨ ∃ j, j < 3 ∧ p = .byte (s.I.toNat + j)
  | .storeRegs x => p ∈ faultPieces ∨ ∃ j, j < x.toNat + 1 ∧ p = .byte (s.I.toNat + j)
  | .loadRegs x => p ∈ faultPieces ∨ ∃ y : Nibble, y.toNat ≤ x.toNat ∧ p = .v y

variable {s t : State}

/-- A guarded rest changes what a fault writes or what the rest changes. -/
theorem guarded_frame {i : Instr} {k : Option Cause} {rest : State} {P : Piece → Prop}
    (h : guarded s i k rest = .next t) (hr : ChangesOnlyWhere P s rest) :
    ChangesOnlyWhere (fun p => p ∈ faultPieces ∨ P p) s t := by
  unfold guarded at h
  split at h
  · rw [← Host.Outcome.next.inj h]
    exact (raiseFault_frame s _ _).mono fun p hp => .inl hp
  · rw [← Host.Outcome.next.inj h]
    exact hr.mono fun p hp => .inr hp

theorem execRet_frame (h : execRet s = .next t) : ChangesOnlyWhere (MayChange .ret s) s t := by
  unfold execRet at h
  split at h
  · rw [← Host.Outcome.next.inj h]
    exact (raiseFault_frame s _ _).mono fun p hp => .inl hp
  · rename_i hk
    rw [← Host.Outcome.next.inj h]
    exact ((pop_frame s hk).mono fun p hp => .inr (by simpa using hp)).trans
      ((setPc_frame _ _).mono fun p hp => .inl (by simp at hp; simp [hp]))

theorem execCall_frame {nnn : Addr} (h : execCall nnn s = .next t) : ChangesOnlyWhere (MayChange (.call nnn) s) s t := by
  unfold execCall at h
  split at h
  · rw [← Host.Outcome.next.inj h]
    exact (raiseFault_frame s _ _).mono fun p hp => .inl hp
  · rename_i hk
    rw [← Host.Outcome.next.inj h]
    have hs : s.sp.val < 16 := by
      by_contra hn
      rw [s.push_full _ (by omega)] at hk
      simp at hk
    refine ((push_frame s hs hk).mono fun p hp => .inr ?_).trans
      ((setPc_frame _ _).mono fun p hp => .inl (by simp at hp; simp [hp]))
    simp only [List.mem_cons, List.not_mem_nil, or_false] at hp
    exact hp.imp id fun e => ⟨_, e⟩

/-- AN INSTRUCTION CHANGES NO PIECE BUT THOSE `MayChange` NAMES. -/
theorem exec_frame (i : Instr) (h : exec i s = .next t) : ChangesOnlyWhere (MayChange i s) s t := by
  cases i with
  | cls =>
    rw [← Host.Outcome.next.inj h]
    exact showFb_frame s _
  | ret => exact execRet_frame h
  | call nnn => exact execCall_frame h
  | jp nnn | jpV0 nnn =>
    rw [← Host.Outcome.next.inj h]
    exact (setPc_frame s _).mono (by simp [MayChange])
  | seImm x nn | sneImm x nn | seReg x nn | sneReg x nn =>
    rw [← Host.Outcome.next.inj h]
    exact (skipIf_frame s _).mono (by simp [MayChange])
  | skp x | sknp x =>
    rw [← Host.Outcome.next.inj h]
    exact (skipIf_frame s _).mono (by simp [MayChange])
  | ldImm x _ | addImm x _ | ldReg x _ | or x _ | and x _ | xor x _ | rnd x _ =>
    rw [← Host.Outcome.next.inj h]
    exact (setV_frame s _ _).mono (by simp [MayChange])
  | ldVxDt x =>
    rw [← Host.Outcome.next.inj h]
    exact (setV_frame s _ _).mono (by simp [MayChange])
  | addReg x _ | sub x _ | shr x _ | subn x _ | shl x _ =>
    rw [← Host.Outcome.next.inj h]
    exact (writeWithFlag_frame s _ _ _).mono (by simp [MayChange])
  | ldI _ | ldFVx _ =>
    rw [← Host.Outcome.next.inj h]
    exact (setI_frame s _).mono (by simp [MayChange])
  | addIVx x =>
    rw [← Host.Outcome.next.inj h]
    exact (writeIWithFlag_frame s _ _).mono (by simp [MayChange])
  | ldVxK x =>
    rw [← Host.Outcome.next.inj h]
    exact ((setKlatch_frame s _).mono (by simp [MayChange])).trans ((setStatus_frame _ _).mono (by simp [MayChange]))
  | ldDtVx x =>
    rw [← Host.Outcome.next.inj h]
    exact (setDt_frame s _).mono (by simp [MayChange])
  | ldStVx x =>
    rw [← Host.Outcome.next.inj h]
    exact (setSt_frame s _).mono (by simp [MayChange])
  | drw x y n =>
    refine (guarded_frame h (draw_frame s x y n)).mono fun p hp => ?_
    rcases hp with hp | rfl | hp | hp
    · exact .inl hp
    · exact .inl (by simp)
    · exact .inr (.inl hp)
    · exact .inr (.inr hp)
  | ldBVx x => exact (guarded_frame h (storeBytes_frame s _ _)).mono (by simp [MayChange, bcdDigits])
  | storeRegs x => exact (guarded_frame h (storeBytes_frame s _ _)).mono (by simp [MayChange])
  | loadRegs x =>
    refine (guarded_frame h (setVs_frame s 0 _ (by simp; omega))).mono fun p hp => ?_
    rcases hp with hp | ⟨y, _, hy, rfl⟩
    · exact .inl hp
    · exact .inr ⟨y, by simpa [Nat.lt_succ_iff] using hy, rfl⟩

/-- A fault that execution raises: the instruction whose check it is, and what is true of the state. -/
def RaisedBy (i : Instr) (s : State) : Cause → Prop
  | .decodeError => False
  | .stackOverflow => (∃ nnn, i = .call nnn) ∧ s.sp.val = 16
  | .stackUnderflow => i = .ret ∧ s.sp.val = 0
  | .memoryBoundsError base len => base = s.I ∧ s.RangeFails i len

/-- A guarded rest whose check ran on I. -/
theorem guarded_cases {i : Instr} {k : Option Cause} {rest : State} (h : guarded s i k rest = .next t)
    (hk : ∀ c, k = some c → RaisedBy i s c) : (∃ c, RaisedBy i s c ∧ t = s.raiseFault i c) ∨ (k = none ∧ t = rest) := by
  cases hc : k with
  | some c => exact .inl ⟨c, hk c hc, by rw [guarded_some s i rest hc] at h; exact (Host.Outcome.next.inj h).symm⟩
  | none => exact .inr ⟨rfl, by rw [guarded_none s i rest hc] at h; exact (Host.Outcome.next.inj h).symm⟩

theorem RaisedBy.of_checkRange {i : Instr} {len : Nat} (hl : accessLength i = some len) {c : Cause} (h : checkRange s.I len = some c) :
    RaisedBy i s c := by
  obtain ⟨rfl, h1, h2⟩ := (checkRange_eq_some _ _ _).1 h
  exact ⟨rfl, hl, h1, .inl h2⟩

theorem RaisedBy.of_checkStore {i : Instr} {len : Nat} (hl : accessLength i = some len) (hs : Stores i) {c : Cause}
    (h : checkStore s.params s.I len = some c) : RaisedBy i s c := by
  obtain ⟨rfl, h1, h2⟩ := checkStore_eq_some h
  exact ⟨rfl, hl, h1, h2.imp_right fun h => ⟨hs, h⟩⟩

/-- AN INSTRUCTION FAULTS, or is FX0A and waits, or leaves the status alone. -/
theorem exec_status (i : Instr) (h : exec i s = .next t) :
    (∃ c, RaisedBy i s c ∧ t = s.raiseFault i c) ∨ (∃ x, i = .ldVxK x ∧ t.status = .awaitingKey x) ∨ t.status = s.status := by
  have keep : ¬MayChange i s .status → t.status = s.status := fun hn => exec_frame i h _ hn
  cases i with
  | ret =>
    simp only [exec, execRet] at h
    split at h
    · rename_i hk
      refine .inl ⟨.stackUnderflow, ⟨rfl, ?_⟩, (Host.Outcome.next.inj h).symm⟩
      by_contra hn
      rw [s.pop_eq (by omega)] at hk
      simp at hk
    · rename_i w u hk
      have hu : u.status = s.status := pop_frame s hk .status (by simp)
      rw [← Host.Outcome.next.inj h]
      exact .inr (.inr hu)
  | call nnn =>
    simp only [exec, execCall] at h
    split at h
    · rename_i hk
      refine .inl ⟨.stackOverflow, ⟨⟨nnn, rfl⟩, ?_⟩, (Host.Outcome.next.inj h).symm⟩
      by_contra hn
      rw [s.push_eq _ (by omega)] at hk
      simp at hk
    · rename_i u hk
      have hs : s.sp.val < 16 := by
        by_contra hn
        rw [s.push_full _ (by omega)] at hk
        simp at hk
      have hu : u.status = s.status := push_frame s hs hk .status (by simp)
      rw [← Host.Outcome.next.inj h]
      exact .inr (.inr hu)
  | ldVxK x =>
    rw [← Host.Outcome.next.inj h]
    exact .inr (.inl ⟨x, rfl, rfl⟩)
  | drw x y n =>
    rcases guarded_cases h fun c hc => .of_checkRange rfl hc with hf | ⟨_, rfl⟩
    · exact .inl hf
    · exact .inr (.inr (draw_frame s x y n .status (by simp)))
  | ldBVx x =>
    rcases guarded_cases h fun c hc => .of_checkStore (i := .ldBVx x) rfl trivial hc with hf | ⟨_, rfl⟩
    · exact .inl hf
    · exact .inr (.inr rfl)
  | storeRegs x =>
    rcases guarded_cases h fun c hc => .of_checkStore (i := .storeRegs x) rfl trivial hc with hf | ⟨_, rfl⟩
    · exact .inl hf
    · exact .inr (.inr rfl)
  | loadRegs x =>
    rcases guarded_cases h fun c hc => .of_checkRange rfl hc with hf | ⟨_, rfl⟩
    · exact .inl hf
    · rw [s.setVs_eq]
      exact .inr (.inr rfl)
  | _ => exact .inr (.inr (keep (by simp [MayChange])))

end Sys2Proof.Machine
end

