-- ==== Sys2Proof/Laws/Operands.lean ====
section
/-! SUPPORT. The operand forms, the flags and the counters as arithmetic on natural numbers. -/

namespace Sys2Proof.Machine

theorem zext16_toNat (a : Addr) : (zext16 a).toNat = a.toNat := by
  have := a.isLt
  rw [zext16, BitVec.toNat_setWidth]
  omega

theorem zext16Byte_toNat (b : Byte) : (zext16Byte b).toNat = b.toNat := by
  have := b.isLt
  rw [zext16Byte, BitVec.toNat_setWidth]
  omega

/-- The masks of FX29, EX9E and EXA1 are remainders (D7). -/
theorem lowNibble_toNat (b : Byte) : (lowNibble b).toNat = b.toNat % 16 := by
  have : b.toNat &&& 15 = b.toNat % 16 := Nat.and_two_pow_sub_one_eq_mod b.toNat 4
  rw [lowNibble, BitVec.toNat_setWidth, BitVec.toNat_and, BitVec.toNat_ofNat, this]
  omega

theorem nibbleByte_toNat (k : Nibble) : (nibbleByte k).toNat = k.toNat := by
  have := k.isLt
  rw [nibbleByte, BitVec.toNat_setWidth]
  omega

/-- A glyph's address is the exact sum: the font base has 12 bits, so nothing wraps (R41). -/
theorem glyphAddress_toNat (p : Params) (g : Nibble) : (glyphAddress p g).toNat = p.fontBase.toNat + 5 * g.toNat := by
  have := p.fontBase.isLt
  have := g.isLt
  rw [glyphAddress, BitVec.toNat_add, zext16_toNat, BitVec.toNat_mul, BitVec.toNat_setWidth, BitVec.toNat_ofNat]
  omega

theorem flagByte_toNat (c : Bool) : (flagByte c).toNat = if c = true then 1 else 0 := by cases c <;> rfl

/-- A difference modulo 256 (R8). -/
theorem byte_sub_toNat (a b : Byte) : (a - b).toNat = (a.toNat + 256 - b.toNat) % 256 := by
  rw [BitVec.toNat_sub]
  omega

/-- Counting down stops at zero (R134). -/
theorem countDown_toNat (b : Byte) : (countDown b).toNat = b.toNat - 1 := by
  unfold countDown
  split
  · rename_i h
    rw [h]
    rfl
  · rename_i h
    have : b.toNat ≠ 0 := fun e => h (BitVec.eq_of_toNat_eq e)
    have := b.isLt
    rw [byte_sub_toNat, show (1 : Byte).toNat = 1 from rfl]
    omega

/-- The reset contents inside the font (R41). -/
theorem unlisted_font (p : Params) (g : Fin 16) (r : Fin 5) :
    unlisted p (p.fontBase.toNat + 5 * g.val + r.val) = p.fontData[g][r] := by
  have e : p.fontBase.toNat + 5 * g.val + r.val - p.fontBase.toNat = 5 * g.val + r.val := by omega
  have e1 : (5 * g.val + r.val) / 5 = g.val := by omega
  have e2 : (5 * g.val + r.val) % 5 = r.val := by omega
  unfold unlisted
  rw [dif_pos (by omega)]
  simp only [e, e1, e2]
  rfl

/-- The reset contents outside the font (R36). -/
theorem unlisted_zero (p : Params) (a : Nat) (h : a < p.fontBase.toNat ∨ p.fontBase.toNat + 80 ≤ a) : unlisted p a = 0 := by
  unfold unlisted
  rw [dif_neg (by omega)]
  rfl

/-- A store's checks raise their fault exactly where the range leaves memory or, under fault, starts low. -/
theorem checkStore_raises {p : Params} {base : Word} {len : Nat} (hl : 0 < len)
    (h : 0x1000 < base.toNat + len ∨ p.lowMemoryWrites = .fault ∧ base.toNat < 0x200) :
    checkStore p base len = some (.memoryBoundsError base len) := by
  cases hc : checkStore p base len with
  | none =>
    obtain ⟨h1, h2⟩ := (checkStore_eq_none _ _ _).1 hc
    rcases h with h | ⟨h, h'⟩
    · omega
    · rcases h2 with h2 | h2 | h2
      · rw [h] at h2
        cases h2
      · omega
      · omega
  | some c => rw [(checkStore_eq_some hc).1]

end Sys2Proof.Machine
end

