-- ==== Sys2Proof/Laws/PerInstr.lean ====
section
/-! SUPPORT. The encoding of every instruction fits its row of spec/opcode_table.json: every fixed field of the row holds the
row's value. The rows are the table's, so this holds the encoder against a text other than R60. -/

namespace Sys2Proof.Laws

/-- A fixed field of a table row: bits hi to lo hold value. -/
structure FixedField where
  hi : Nat
  lo : Nat
  value : Nat
  deriving DecidableEq, Repr

/-- The fixed fields of the instruction's row in spec/opcode_table.json. -/
def tableFixed : Instr → List FixedField
  | .cls => [⟨15, 0, 0xE0⟩]
  | .ret => [⟨15, 0, 0xEE⟩]
  | .jp _ => [⟨15, 12, 0x1⟩]
  | .call _ => [⟨15, 12, 0x2⟩]
  | .seImm _ _ => [⟨15, 12, 0x3⟩]
  | .sneImm _ _ => [⟨15, 12, 0x4⟩]
  | .seReg _ _ => [⟨3, 0, 0x0⟩, ⟨15, 12, 0x5⟩]
  | .ldImm _ _ => [⟨15, 12, 0x6⟩]
  | .addImm _ _ => [⟨15, 12, 0x7⟩]
  | .ldReg _ _ => [⟨3, 0, 0x0⟩, ⟨15, 12, 0x8⟩]
  | .or _ _ => [⟨3, 0, 0x1⟩, ⟨15, 12, 0x8⟩]
  | .and _ _ => [⟨3, 0, 0x2⟩, ⟨15, 12, 0x8⟩]
  | .xor _ _ => [⟨3, 0, 0x3⟩, ⟨15, 12, 0x8⟩]
  | .addReg _ _ => [⟨3, 0, 0x4⟩, ⟨15, 12, 0x8⟩]
  | .sub _ _ => [⟨3, 0, 0x5⟩, ⟨15, 12, 0x8⟩]
  | .shr _ _ => [⟨3, 0, 0x6⟩, ⟨15, 12, 0x8⟩]
  | .subn _ _ => [⟨3, 0, 0x7⟩, ⟨15, 12, 0x8⟩]
  | .shl _ _ => [⟨3, 0, 0xE⟩, ⟨15, 12, 0x8⟩]
  | .sneReg _ _ => [⟨3, 0, 0x0⟩, ⟨15, 12, 0x9⟩]
  | .ldI _ => [⟨15, 12, 0xA⟩]
  | .jpV0 _ => [⟨15, 12, 0xB⟩]
  | .rnd _ _ => [⟨15, 12, 0xC⟩]
  | .drw _ _ _ => [⟨15, 12, 0xD⟩]
  | .skp _ => [⟨7, 0, 0x9E⟩, ⟨15, 12, 0xE⟩]
  | .sknp _ => [⟨7, 0, 0xA1⟩, ⟨15, 12, 0xE⟩]
  | .ldVxDt _ => [⟨7, 0, 0x7⟩, ⟨15, 12, 0xF⟩]
  | .ldVxK _ => [⟨7, 0, 0xA⟩, ⟨15, 12, 0xF⟩]
  | .ldDtVx _ => [⟨7, 0, 0x15⟩, ⟨15, 12, 0xF⟩]
  | .ldStVx _ => [⟨7, 0, 0x18⟩, ⟨15, 12, 0xF⟩]
  | .addIVx _ => [⟨7, 0, 0x1E⟩, ⟨15, 12, 0xF⟩]
  | .ldFVx _ => [⟨7, 0, 0x29⟩, ⟨15, 12, 0xF⟩]
  | .ldBVx _ => [⟨7, 0, 0x33⟩, ⟨15, 12, 0xF⟩]
  | .storeRegs _ => [⟨7, 0, 0x55⟩, ⟨15, 12, 0xF⟩]
  | .loadRegs _ => [⟨7, 0, 0x65⟩, ⟨15, 12, 0xF⟩]

/-- A word holds a fixed field. -/
def FixedField.In (f : FixedField) (w : Word) : Prop := w.toNat / 2 ^ f.lo % 2 ^ (f.hi - f.lo + 1) = f.value

/-! ### The shapes of rows -/

/-- A row whose only fixed field is op, the rest NNN. -/
theorem fits_nnn {op : Nibble} {v : Nat} (nnn : Addr) (h : op.toNat = v) : ∀ f ∈ [FixedField.mk 15 12 v], f.In (wordNNN op nnn) := by
  simp only [List.forall_mem_singleton, FixedField.In, wordNNN_toNat]
  omega

/-- A row whose only fixed field is op, the rest X and NN. -/
theorem fits_nn {op : Nibble} {v : Nat} (x : Nibble) (nn : Byte) (h : op.toNat = v) :
    ∀ f ∈ [FixedField.mk 15 12 v], f.In (wordNN op x nn) := by
  simp only [List.forall_mem_singleton, FixedField.In, wordNN_toNat]
  omega

/-- A row whose only fixed field is op, the rest X, Y and N. -/
theorem fits_xyn {op : Nibble} {v : Nat} (x y n : Nibble) (h : op.toNat = v) :
    ∀ f ∈ [FixedField.mk 15 12 v], f.In (word4 op x y n) := by
  simp only [List.forall_mem_singleton, FixedField.In, word4_toNat]
  omega

/-- A row with op and the low nibble fixed. -/
theorem fits_low4 {op n : Nibble} {v u : Nat} (x y : Nibble) (h : op.toNat = v) (k : n.toNat = u) :
    ∀ f ∈ [FixedField.mk 3 0 u, FixedField.mk 15 12 v], f.In (word4 op x y n) := by
  simp only [List.forall_mem_cons, List.not_mem_nil, false_imp_iff, implies_true, and_true, FixedField.In, word4_toNat]
  omega

/-- A row with op and the low byte fixed. -/
theorem fits_low8 {op : Nibble} {nn : Byte} {v u : Nat} (x : Nibble) (h : op.toNat = v) (k : nn.toNat = u) :
    ∀ f ∈ [FixedField.mk 7 0 u, FixedField.mk 15 12 v], f.In (wordNN op x nn) := by
  simp only [List.forall_mem_cons, List.not_mem_nil, false_imp_iff, implies_true, and_true, FixedField.In, wordNN_toNat]
  omega

namespace EncodingFitsTableRow

/-- The family's statement about one instruction. -/
def Statement (i : Instr) : Prop := ∀ f ∈ tableFixed i, f.In (encode i)

theorem cls : Statement .cls := by simp [Statement, tableFixed, FixedField.In, encode]
theorem ret : Statement .ret := by simp [Statement, tableFixed, FixedField.In, encode]
theorem jp (nnn : Addr) : Statement (.jp nnn) := fits_nnn nnn rfl
theorem call (nnn : Addr) : Statement (.call nnn) := fits_nnn nnn rfl
theorem seImm (x : Nibble) (nn : Byte) : Statement (.seImm x nn) := fits_nn x nn rfl
theorem sneImm (x : Nibble) (nn : Byte) : Statement (.sneImm x nn) := fits_nn x nn rfl
theorem seReg (x : Nibble) (y : Nibble) : Statement (.seReg x y) := fits_low4 x y rfl rfl
theorem ldImm (x : Nibble) (nn : Byte) : Statement (.ldImm x nn) := fits_nn x nn rfl
theorem addImm (x : Nibble) (nn : Byte) : Statement (.addImm x nn) := fits_nn x nn rfl
theorem ldReg (x : Nibble) (y : Nibble) : Statement (.ldReg x y) := fits_low4 x y rfl rfl
theorem or (x : Nibble) (y : Nibble) : Statement (.or x y) := fits_low4 x y rfl rfl
theorem and (x : Nibble) (y : Nibble) : Statement (.and x y) := fits_low4 x y rfl rfl
theorem xor (x : Nibble) (y : Nibble) : Statement (.xor x y) := fits_low4 x y rfl rfl
theorem addReg (x : Nibble) (y : Nibble) : Statement (.addReg x y) := fits_low4 x y rfl rfl
theorem sub (x : Nibble) (y : Nibble) : Statement (.sub x y) := fits_low4 x y rfl rfl
theorem shr (x : Nibble) (y : Nibble) : Statement (.shr x y) := fits_low4 x y rfl rfl
theorem subn (x : Nibble) (y : Nibble) : Statement (.subn x y) := fits_low4 x y rfl rfl
theorem shl (x : Nibble) (y : Nibble) : Statement (.shl x y) := fits_low4 x y rfl rfl
theorem sneReg (x : Nibble) (y : Nibble) : Statement (.sneReg x y) := fits_low4 x y rfl rfl
theorem ldI (nnn : Addr) : Statement (.ldI nnn) := fits_nnn nnn rfl
theorem jpV0 (nnn : Addr) : Statement (.jpV0 nnn) := fits_nnn nnn rfl
theorem rnd (x : Nibble) (nn : Byte) : Statement (.rnd x nn) := fits_nn x nn rfl
theorem drw (x : Nibble) (y : Nibble) (n : Nibble) : Statement (.drw x y n) := fits_xyn x y n rfl
theorem skp (x : Nibble) : Statement (.skp x) := fits_low8 x rfl rfl
theorem sknp (x : Nibble) : Statement (.sknp x) := fits_low8 x rfl rfl
theorem ldVxDt (x : Nibble) : Statement (.ldVxDt x) := fits_low8 x rfl rfl
theorem ldVxK (x : Nibble) : Statement (.ldVxK x) := fits_low8 x rfl rfl
theorem ldDtVx (x : Nibble) : Statement (.ldDtVx x) := fits_low8 x rfl rfl
theorem ldStVx (x : Nibble) : Statement (.ldStVx x) := fits_low8 x rfl rfl
theorem addIVx (x : Nibble) : Statement (.addIVx x) := fits_low8 x rfl rfl
theorem ldFVx (x : Nibble) : Statement (.ldFVx x) := fits_low8 x rfl rfl
theorem ldBVx (x : Nibble) : Statement (.ldBVx x) := fits_low8 x rfl rfl
theorem storeRegs (x : Nibble) : Statement (.storeRegs x) := fits_low8 x rfl rfl
theorem loadRegs (x : Nibble) : Statement (.loadRegs x) := fits_low8 x rfl rfl

end EncodingFitsTableRow

end Sys2Proof.Laws
end

