-- ==== Sys2Proof/Tests/Slice0.lean ====
section
/-! SUPPORT. Our own checks. Expected results are the spec's: words by the patterns of 30_encoding.md R60, results by
95_test_vectors.md (its sections named below) or worked by hand from the rule named. After them, one theorem per obligation with
hypotheses that shows states and operands meeting them. -/

namespace Sys2Proof.Tests

open Sys2Proof.Machine Sys2Proof.Claims

/-! ### Helpers -/

/-- The state of an answer. -/
def answer : Result → Option State
  | .next t => some t
  | .fault _ => none
  | .refused _ => none

/-- One step with the word w standing at pc, and what `see` sees after it. -/
def after {α : Type} (w : Nat) (s : State) (see : State → α) : Option α := (answer (step (s.withFetchWord 16 w))).map see

/-- One step of the events queued, and what `see` sees after it. -/
def afterStep {α : Type} (s : State) (see : State → α) : Option α := (answer (step s)).map see

/-- The reset state with some events queued. -/
def queued (es : List Event) (s : State := State.reset) : State := { s with env := { s.env with events := es } }

/-- The state with registers V[k] = b. -/
def withV (s : State) : List (Nibble × Byte) → State
  | [] => s
  | (k, b) :: l => withV (s.setV k b) l

/-- The reset state with registers V[k] = b. -/
def regs (l : List (Nibble × Byte)) : State := withV State.reset l

/-- The status of a state whose instruction at 0x200 took a fault. -/
def faultAt200 (c : Cause) (w : Word) : Status := .faulted ⟨c, 0x200#16, some w⟩

theorem answer_some {o : Result} {P : State → Bool} (h : (answer o).any P = true) : ∃ t, o = .next t ∧ P t = true := by
  cases o with
  | next t => exact ⟨t, rfl, h⟩
  | fault f => cases h
  | refused r => cases h

/-! ### Well-formedness: the check refuses an ill-formed term -/

theorem test_wf_font_past_reserved_region : ({ Config.defaults with fontBase := 0x1B1#12 } : Params).wellFormed = false := by
  decide
theorem test_wf_font_last_place : ({ Config.defaults with fontBase := 0x1B0#12 } : Params).wellFormed = true := by decide
theorem test_wf_instruction : (Instr.drw 0xF#4 0xF#4 0xF#4).wellFormed = true := by decide
/-- A word with a field too wide is no instruction term at all: the types carry the bounds; the words refused are R67's. -/
theorem test_wf_reserved_words :
    [0x0000, 0x00E1, 0x0123, 0x5001, 0x900F, 0x8008, 0x800F, 0xE09F, 0xF156, 0x0F07].map (decodeTableWord 16) =
      List.replicate 10 none := by decide
theorem test_wf_memory_form : ¬Memory.wf Config.defaults [(0x201, 1#8), (0x200, 1#8)] := by decide
theorem test_wf_memory_no_default : ¬Memory.wf Config.defaults [(0x050, 0xF0#8)] := by decide
theorem test_wf_memory_in_space : ¬Memory.wf Config.defaults [(0x1000, 1#8)] := by decide

/-! ### Every constructor's decoding, from a word written out from R60's pattern -/

theorem test_decode_control :
    decode 0x00E0#16 = .op .cls ∧ decode 0x00EE#16 = .op .ret ∧ decode 0x1FFF#16 = .op (.jp 0xFFF#12) ∧
    decode 0x2000#16 = .op (.call 0x000#12) ∧ decode 0x3342#16 = .op (.seImm 3#4 0x42#8) ∧
    decode 0x4001#16 = .op (.sneImm 0#4 0x01#8) ∧ decode 0x5AB0#16 = .op (.seReg 10#4 11#4) ∧
    decode 0x9120#16 = .op (.sneReg 1#4 2#4) ∧ decode 0xB123#16 = .op (.jpV0 0x123#12) := by decide
theorem test_decode_loads :
    decode 0x6A2F#16 = .op (.ldImm 10#4 0x2F#8) ∧ decode 0x72FF#16 = .op (.addImm 2#4 0xFF#8) ∧
    decode 0x8120#16 = .op (.ldReg 1#4 2#4) ∧ decode 0xC30F#16 = .op (.rnd 3#4 0x0F#8) := by decide
theorem test_decode_alu :
    decode 0x8121#16 = .op (.or 1#4 2#4) ∧ decode 0x8122#16 = .op (.and 1#4 2#4) ∧ decode 0x8123#16 = .op (.xor 1#4 2#4) ∧
    decode 0x8124#16 = .op (.addReg 1#4 2#4) ∧ decode 0x8125#16 = .op (.sub 1#4 2#4) ∧
    decode 0x8AB6#16 = .op (.shr 10#4 11#4) ∧ decode 0x8127#16 = .op (.subn 1#4 2#4) ∧
    decode 0x8ABE#16 = .op (.shl 10#4 11#4) := by decide
theorem test_decode_index :
    decode 0xA2F0#16 = .op (.ldI 0x2F0#12) ∧ decode 0xF21E#16 = .op (.addIVx 2#4) ∧ decode 0xF029#16 = .op (.ldFVx 0#4) ∧
    decode 0xFA33#16 = .op (.ldBVx 10#4) ∧ decode 0xF155#16 = .op (.storeRegs 1#4) ∧
    decode 0xFF65#16 = .op (.loadRegs 15#4) := by decide
theorem test_decode_display_keys_timers :
    decode 0xDABC#16 = .op (.drw 10#4 11#4 12#4) ∧ decode 0xE19E#16 = .op (.skp 1#4) ∧ decode 0xEFA1#16 = .op (.sknp 15#4) ∧
    decode 0xF307#16 = .op (.ldVxDt 3#4) ∧ decode 0xF20A#16 = .op (.ldVxK 2#4) ∧ decode 0xF015#16 = .op (.ldDtVx 0#4) ∧
    decode 0xF118#16 = .op (.ldStVx 1#4) := by decide
/-- Big-endian (R43): the byte at the lower address is the high half. -/
theorem test_decode_bytes : decodeBytes [0x12#8, 0x34#8, 0x56#8] = some (.op (.jp 0x234#12), [0x56#8]) := by decide

/-! ### The cycle (95_test_vectors.md section 3) -/

theorem test_first_step_from_reset : afterStep State.reset State.status = some (faultAt200 .decodeError 0x0000#16) := by decide
theorem test_odd_pc : after 0x6005 (State.reset.setPc 0x201#16) (fun t => (t.getV 0, t.pc)) = some (5#8, 0x203#16) := by decide
theorem test_last_word :
    after 0x602A (State.reset.setPc 0xFFE#16) (fun t => (t.getV 0, t.pc, t.result)) = some (0x2A#8, 0x1000#16, .running) := by
  decide
theorem test_halts : afterStep (State.reset.setPc 0x1000#16) (fun t => (t.status, t.result)) = some (.halted, .halted) := by decide
theorem test_fetch_fault :
    afterStep (State.reset.setPc 0xFFF#16) State.status =
      some (.faulted ⟨.memoryBoundsError 0xFFF#16 2, 0xFFF#16, none⟩) := by decide
theorem test_decode_error :
    after 0x8008 (regs [(1#4, 5#8)]) (fun t => (t.status, t.getV 1, t.pc)) =
      some (faultAt200 .decodeError 0x8008#16, 5#8, 0x200#16) := by decide

/-! ### Control transfer (section 4) -/

theorem test_ret :
    after 0x00EE { State.reset with pc := 0x300#16, sp := 1, stack := State.reset.stack.set 0 0x202#16 }
      (fun t => (t.pc, t.sp, t.stack[0])) = some (0x202#16, 0, 0x202#16) := by decide
theorem test_ret_empty :
    after 0x00EE (State.reset.setPc 0x300#16) (fun t => (t.status, t.pc)) =
      some (.faulted ⟨.stackUnderflow, 0x300#16, some 0x00EE#16⟩, 0x300#16) := by decide
theorem test_jp : after 0x1301 State.reset State.pc = some 0x301#16 := by decide
theorem test_call_last_entry :
    after 0x2300 { State.reset with sp := 15 } (fun t => (t.stack[15], t.sp, t.pc)) = some (0x202#16, 16, 0x300#16) := by decide
theorem test_call_full :
    after 0x2300 { State.reset with sp := 16 } (fun t => (t.status, t.sp, t.pc)) =
      some (faultAt200 .stackOverflow 0x2300#16, 16, 0x200#16) := by decide
theorem test_se_imm_taken : after 0x3342 (regs [(3#4, 0x42#8)]) State.pc = some 0x204#16 := by decide
theorem test_se_imm_not_taken : after 0x3342 (regs [(3#4, 0x41#8)]) State.pc = some 0x202#16 := by decide
theorem test_sne_imm_taken : after 0x4001 State.reset State.pc = some 0x204#16 := by decide
theorem test_sne_imm_not_taken : after 0x4000 State.reset State.pc = some 0x202#16 := by decide
theorem test_se_reg_taken : after 0x5120 (regs [(1#4, 7#8), (2#4, 7#8)]) State.pc = some 0x204#16 := by decide
theorem test_se_reg_not_taken : after 0x5120 (regs [(1#4, 7#8), (2#4, 8#8)]) State.pc = some 0x202#16 := by decide
theorem test_sne_reg_taken : after 0x9120 (regs [(1#4, 7#8), (2#4, 8#8)]) State.pc = some 0x204#16 := by decide
theorem test_sne_reg_not_taken : after 0x9120 (regs [(1#4, 7#8), (2#4, 7#8)]) State.pc = some 0x202#16 := by decide
theorem test_jp_v0 : after 0xB300 (regs [(0#4, 0x10#8)]) State.pc = some 0x310#16 := by decide
theorem test_jp_v0_exact : after 0xBF01 (regs [(0#4, 0xFF#8)]) State.pc = some 0x1000#16 := by decide

/-! ### Loads, ALU, random (sections 1 and 5) -/

theorem test_ld_imm : after 0x6F07 State.reset (·.getV VF) = some 7#8 := by decide
theorem test_add_imm_wraps :
    after 0x710A (regs [(1#4, 250#8), (VF, 0x55#8)]) (fun t => (t.getV 1, t.getV VF)) = some (4#8, 0x55#8) := by decide
theorem test_ld_reg : after 0x8120 (regs [(2#4, 0x99#8)]) (·.getV 1) = some 0x99#8 := by decide
theorem test_or :
    after 0x8121 (regs [(1#4, 0xF0#8), (2#4, 0x0F#8), (VF, 0x33#8)]) (fun t => (t.getV 1, t.getV VF)) = some (0xFF#8, 0x33#8) := by
  decide
theorem test_and : after 0x8122 (regs [(1#4, 0xF0#8), (2#4, 0x3C#8)]) (·.getV 1) = some 0x30#8 := by decide
theorem test_xor : after 0x8123 (regs [(1#4, 0xFF#8), (2#4, 0x0F#8)]) (·.getV 1) = some 0xF0#8 := by decide
theorem test_add_carry :
    after 0x8124 (regs [(1#4, 200#8), (2#4, 100#8)]) (fun t => (t.getV 1, t.getV VF)) = some (44#8, 1#8) := by decide
theorem test_add_no_carry :
    after 0x8124 (regs [(1#4, 0x80#8), (2#4, 0x7F#8), (VF, 1#8)]) (fun t => (t.getV 1, t.getV VF)) = some (0xFF#8, 0#8) := by decide
theorem test_sub_borrow :
    after 0x8125 (regs [(1#4, 5#8), (2#4, 10#8), (VF, 1#8)]) (fun t => (t.getV 1, t.getV VF)) = some (251#8, 0#8) := by decide
theorem test_sub_into_vf_data_last :
    after 0x8F15 { regs [(VF, 3#8), (1#4, 5#8)] with params := { Config.defaults with flagOrder := .dataLast } } (·.getV VF) =
      some 0xFE#8 := by decide
theorem test_shr : after 0x8106 (regs [(1#4, 3#8)]) (fun t => (t.getV 1, t.getV VF)) = some (1#8, 1#8) := by decide
theorem test_shr_y_ignored :
    after 0x81A6 (regs [(1#4, 0x80#8), (10#4, 0xFF#8)]) (fun t => (t.getV 1, t.getV VF)) = some (0x40#8, 0#8) := by decide
theorem test_subn :
    after 0x8127 (regs [(1#4, 5#8), (2#4, 10#8)]) (fun t => (t.getV 1, t.getV VF)) = some (5#8, 1#8) := by decide
theorem test_subn_borrow :
    after 0x8127 (regs [(1#4, 10#8), (2#4, 5#8)]) (fun t => (t.getV 1, t.getV VF)) = some (0xFB#8, 0#8) := by decide
theorem test_shl : after 0x840E (regs [(4#4, 0x81#8)]) (fun t => (t.getV 4, t.getV VF)) = some (2#8, 1#8) := by decide
theorem test_shl_vf : after 0x8F0E (regs [(VF, 0x81#8)]) (·.getV VF) = some 1#8 := by decide
theorem test_rnd : after 0xC30F (queued [.cycle 0#16 0xAB#8]) (·.getV 3) = some 0x0B#8 := by decide

/-! ### Index register and memory blocks (section 6) -/

theorem test_ld_i : after 0xA2F0 State.reset State.I = some 0x2F0#16 := by decide
theorem test_add_i_past_memory :
    after 0xF21E ((regs [(2#4, 1#8)]).setI 0xFFF#16) (fun t => (t.I, t.getV VF)) = some (0x1000#16, 1#8) := by decide
theorem test_add_i_wraps :
    after 0xF21E ((regs [(2#4, 2#8)]).setI 0xFFFF#16) (fun t => (t.I, t.getV VF)) = some (1#16, 1#8) := by decide
theorem test_ld_f : after 0xF029 (regs [(0#4, 0x1A#8)]) State.I = some 0x082#16 := by decide
theorem test_ld_b_at_the_top :
    after 0xFA33 ((regs [(10#4, 123#8)]).setI 0xFFD#16) (fun t => t.readBytes 0xFFD 3) = some [1#8, 2#8, 3#8] := by decide
theorem test_ld_b_past_the_top :
    after 0xFA33 ((regs [(10#4, 123#8)]).setI 0xFFE#16) (fun t => (t.status, t.readBytes 0xFFE 2)) =
      some (faultAt200 (.memoryBoundsError 0xFFE#16 3) 0xFA33#16, [0#8, 0#8]) := by decide
theorem test_store_regs :
    after 0xF255 ((regs [(0#4, 1#8), (1#4, 2#8), (2#4, 3#8), (3#4, 4#8)]).setI 0x400#16) (fun t => (t.readBytes 0x400 4, t.I)) =
      some ([1#8, 2#8, 3#8, 0#8], 0x400#16) := by decide
theorem test_store_regs_past_the_top :
    after 0xF155 (State.reset.setI 0xFFF#16) State.status = some (faultAt200 (.memoryBoundsError 0xFFF#16 2) 0xF155#16) := by decide
theorem test_load_regs :
    after 0xF265 (((regs [(3#4, 0x77#8)]).storeBytes 0x300 [1#8, 5#8, 6#8, 9#8]).setI 0x300#16)
      (fun t => ([t.getV 0, t.getV 1, t.getV 2, t.getV 3], t.I)) = some ([1#8, 5#8, 6#8, 0x77#8], 0x300#16) := by decide
theorem test_load_regs_font :
    after 0xF465 (State.reset.setI 0x050#16) (·.firstVs 5) = some [0xF0#8, 0x90#8, 0x90#8, 0x90#8, 0xF0#8] := by decide

/-! ### Framebuffer (section 7) -/

/-- The reset state with bytes at 0x300 and I = 0x300. -/
def sprite (bs : List Byte) (l : List (Nibble × Byte)) : State := ((regs l).storeBytes 0x300 bs).setI 0x300#16

theorem test_cls :
    after 0x00E0 { regs [(VF, 7#8)] with fb := State.reset.fb.set 65 true }
      (fun t => (cell t.fb 1 1, t.getV VF, t.displayUpdate)) = some (false, 7#8, true) := by decide
theorem test_drw_wraps_horizontally :
    after 0xD011 (sprite [0xFF#8] [(0#4, 60#8), (VF, 1#8)])
      (fun t => ([cell t.fb 0 59, cell t.fb 0 60, cell t.fb 0 63, cell t.fb 0 0, cell t.fb 0 3, cell t.fb 0 4], t.getV VF)) =
      some ([false, true, true, true, true, false], 0#8) := by decide
/-- Row 32 of the section's clip vector: not drawn under clip, row 0 under wrap. -/
theorem test_drw_clips_vertically :
    (spriteY 30#8, screenRow Config.defaults 30 1, screenRow Config.defaults 30 2,
      screenRow { Config.defaults with drawVertical := .wrap } 30 2) = (30, some 31, none, some 0) := by decide

/-! ### Keys and timers (sections 8 to 10) -/

theorem test_skp : after 0xE59E (queued [.cycle 0x1000#16 0#8] (regs [(5#4, 0x1C#8)])) State.pc = some 0x204#16 := by decide
theorem test_skp_not_taken : after 0xE59E (regs [(5#4, 0x0C#8)]) State.pc = some 0x202#16 := by decide
theorem test_sknp : after 0xE5A1 (regs [(5#4, 0x0C#8)]) State.pc = some 0x204#16 := by decide
theorem test_sknp_not_taken :
    after 0xE5A1 (queued [.cycle 0x1000#16 0#8] (regs [(5#4, 0x0C#8)])) State.pc = some 0x202#16 := by decide
theorem test_ld_vx_dt : after 0xF307 (State.reset.setDt 0x3C#8) (·.getV 3) = some 0x3C#8 := by decide
theorem test_ld_vx_k :
    after 0xF20A (queued [.cycle 0x0020#16 0#8]) (fun t => (t.pc, t.status, t.klatch, t.getV 2)) =
      some (0x202#16, .awaitingKey 2#4, 0x0020#16, 0#8) := by decide
/-- The wait's poll, two vectors of section 8: a key still held under edge, and two new keys. -/
theorem test_wait_poll :
    afterStep { queued [.cycle 0x0020#16 0#8] with status := .awaitingKey 2#4, klatch := 0x0020#16 }
      (fun t => (t.status, t.getV 2)) = some (.awaitingKey 2#4, 0#8) ∧
    afterStep { queued [.cycle 0x8012#16 0#8] with status := .awaitingKey 2#4 }
      (fun t => (t.status, t.getV 2, t.klatch)) = some (.running, 1#8, 0x8012#16) := by decide
theorem test_ld_dt_vx : after 0xF015 (regs [(0#4, 60#8)]) State.dt = some 60#8 := by decide
theorem test_ld_st_vx : after 0xF118 (regs [(1#4, 2#8)]) (fun t => (t.st, t.soundActive)) = some (2#8, true) := by decide
theorem test_tick : afterStep ((queued [.tick]).setSt 1#8) (fun t => (t.dt, t.st, t.soundActive)) = some (0#8, 0#8, false) := by decide
theorem test_tick_halted : afterStep { queued [.tick] with dt := 5#8, status := .halted } State.dt = some 5#8 := by decide
theorem test_load : afterStep (queued [.load [0x00#8, 0xE0#8]]) (·.readBytes 0x200 3) = some [0x00#8, 0xE0#8, 0x00#8] := by decide

/-! ### Witnesses: states and operands that meet the hypotheses of each obligation -/

theorem witness_DecoderFollowsTheFamilyTables :
    [0x0FFF, 0x1FFF, 0x2000, 0x3FFF, 0x4000, 0x5AB0, 0x6FFF, 0x7000, 0x9AB0, 0xAFFF, 0xB000, 0xCFFF, 0xD000, 0xEF9E].map
        (fun w => family (BitVec.ofNat 16 w)) = [0x0, 0x1, 0x2, 0x3, 0x4, 0x5, 0x6, 0x7, 0x9, 0xA, 0xB, 0xC, 0xD, 0xE] ∧
    [0x8000, 0x8FF1, 0x8002, 0x8FF3, 0x8004, 0x8FF5, 0x8006, 0x8FF7, 0x8FFE, 0x8008, 0x8FFF].map
        (fun w => (family (BitVec.ofNat 16 w), (BitVec.ofNat 16 w).toNat % 0x10)) =
      [(8, 0), (8, 1), (8, 2), (8, 3), (8, 4), (8, 5), (8, 6), (8, 7), (8, 0xE), (8, 8), (8, 0xF)] ∧
    [0xF007, 0xFF0A, 0xF015, 0xFF18, 0xF01E, 0xFF29, 0xF033, 0xFF55, 0xF065, 0xF000, 0xFFFF].map
        (fun w => (family (BitVec.ofNat 16 w), (BitVec.ofNat 16 w).toNat % 0x100)) =
      [(15, 0x07), (15, 0x0A), (15, 0x15), (15, 0x18), (15, 0x1E), (15, 0x29), (15, 0x33), (15, 0x55), (15, 0x65), (15, 0x00),
        (15, 0xFF)] := by decide
theorem witness_DecodeOfEncodeIsTheInstruction : (Instr.jp 0xFFF#12).wellFormed = true := by decide
theorem witness_EncodeOfDecodedIsTheWord : decode 0x8AB6#16 = .op (.shr 0xA#4 0xB#4) := by decide
theorem witness_ReservedWordsAreExactlyTheDecodeFailures :
    [0x0000, 0x0FFF, 0x00DF, 0x00EF, 0x5001, 0x9FFF, 0x8008, 0x8FFF, 0xE000, 0xEFFF, 0xF000, 0xFFFF].all
      (fun w => decide (Reserved w)) = true ∧
    [0x00E0, 0x00EE, 0x1000, 0x4FFF, 0x5000, 0x8007, 0x800E, 0x9FF0, 0xDFFF, 0xEF9E, 0xE0A1, 0xF007, 0xFF65].all
      (fun w => decide (¬Reserved w)) = true := by decide

/-- The reset state with CLS at pc, the last place a word fits. -/
def clsAtTop : State := (State.reset.setPc 0xFFE#16).storeBytes 0xFFE [0x00#8, 0xE0#8]

theorem witness_StepRunsTheDecodedInstruction_free :
    clsAtTop.BeginsCycle clsAtTop.sampleHeld ∧ clsAtTop.Fetches ∧ decode clsAtTop.fetchWord = .op .cls ∧
      Instr.cls.wellFormed = true ∧ clsAtTop.env.events = [] :=
  ⟨.inl ⟨rfl, rfl⟩, ⟨rfl, by decide⟩, by decide, rfl, rfl⟩
theorem witness_StepRunsTheDecodedInstruction_queued :
    let s := queued [.cycle 0xFFFF#16 0xAB#8, .tick] clsAtTop
    s.BeginsCycle (s.dropEvent.samplePorts 0xFFFF#16 0xAB#8) ∧ s.Fetches ∧ decode s.fetchWord = .op .cls ∧
      s.env.events = .cycle 0xFFFF#16 0xAB#8 :: [.tick] :=
  ⟨.inr ⟨_, _, _, rfl, rfl⟩, ⟨rfl, by decide⟩, by decide, rfl⟩
theorem witness_ReservedWordRaisesDecodeError :
    State.reset.BeginsCycle State.reset.sampleHeld ∧ State.reset.Fetches ∧ Reserved State.reset.fetchWord.toNat :=
  ⟨.inl ⟨rfl, rfl⟩, ⟨rfl, by decide⟩, by decide⟩
theorem witness_NoWordAtPcFaultsOrHalts_fault :
    let s := State.reset.setPc 0xFFF#16
    s.BeginsCycle s.sampleHeld ∧ s.status = .running ∧ 0xFFF ≤ s.pc.toNat ∧ s.pc.toNat = 0xFFF :=
  ⟨.inl ⟨rfl, rfl⟩, rfl, by decide, by decide⟩
theorem witness_NoWordAtPcFaultsOrHalts_halt :
    let s := State.reset.setPc 0x1000#16
    s.BeginsCycle s.sampleHeld ∧ s.status = .running ∧ 0xFFF ≤ s.pc.toNat ∧ 0x1000 ≤ s.pc.toNat :=
  ⟨.inl ⟨rfl, rfl⟩, rfl, by decide, by decide⟩
theorem witness_TerminalStatusIgnoresCycles_halted :
    let s := State.reset.setStatus .halted
    s.BeginsCycle s.sampleHeld ∧ s.status.Terminal := ⟨.inl ⟨rfl, rfl⟩, trivial⟩
theorem witness_TerminalStatusIgnoresCycles_faulted :
    let s := State.reset.setStatus (faultAt200 .decodeError 0#16)
    s.BeginsCycle s.sampleHeld ∧ s.status.Terminal := ⟨.inl ⟨rfl, rfl⟩, trivial⟩

/-- A state that waits for a key, latch and keys given, the trigger too. -/
def waiting (g : KeyTrigger) (klatch keys : Word) : State :=
  { queued [.cycle keys 0#8] with
    status := .awaitingKey 2#4, klatch := klatch, params := { Config.defaults with keyWaitTrigger := g } }

/-- Keys 4 and 15 are new, key 1 is held: the least new key is 4 under edge and 1 under level. -/
theorem witness_KeyWaitPollTakesTheLowestNewKey :
    (∀ g, (waiting g 0x0002#16 0x8012#16).BeginsCycle
        ((waiting g 0x0002#16 0x8012#16).dropEvent.samplePorts 0x8012#16 0#8) ∧
      (waiting g 0x0002#16 0x8012#16).status = .awaitingKey 2#4) ∧
    (∃ new : Nat → Prop,
      (∀ k, new k ↔ (0x8012#16).getLsbD k = true ∧ (KeyTrigger.edge = KeyTrigger.edge → (0x0002#16).getLsbD k = false)) ∧
        new 4 ∧ ∀ j, j < 4 → ¬new j) ∧
    (∃ new : Nat → Prop,
      (∀ k, new k ↔ (0x8012#16).getLsbD k = true ∧ (KeyTrigger.level = KeyTrigger.edge → (0x0002#16).getLsbD k = false)) ∧
        new 1 ∧ ∀ j, j < 1 → ¬new j) :=
  ⟨fun _ => ⟨.inr ⟨_, _, _, rfl, rfl⟩, rfl⟩, ⟨_, fun _ => Iff.rfl, by decide, by decide⟩,
    ⟨_, fun _ => Iff.rfl, by decide, by decide⟩⟩
theorem witness_KeyWaitPollTakesTheLowestNewKey_none :
    (waiting .edge 0x0020#16 0x0020#16).BeginsCycle ((waiting .edge 0x0020#16 0x0020#16).dropEvent.samplePorts 0x0020#16 0#8) ∧
    ∃ new : Nat → Prop,
      (∀ k, new k ↔ (0x0020#16).getLsbD k = true ∧ (KeyTrigger.edge = KeyTrigger.edge → (0x0020#16).getLsbD k = false)) ∧
        ∀ k, k < 16 → ¬new k :=
  ⟨.inr ⟨_, _, _, rfl, rfl⟩, _, fun _ => Iff.rfl, by decide⟩

theorem witness_TickCountsTheTimersDown :
    ((queued [.tick]).setDt 1#8).env.events = .tick :: [] ∧ ¬((queued [.tick]).setDt 1#8).status.Terminal ∧
      (queued [.tick] (State.reset.setStatus .halted)).env.events = .tick :: [] ∧
      (queued [.tick] (State.reset.setStatus .halted)).status.Terminal := ⟨rfl, id, rfl, trivial⟩
theorem witness_TicksRunTheTimersOut :
    ¬(queued [.tick, .tick, .reset]).status.Terminal ∧
      (queued [.tick, .tick, .reset]).env.events = List.replicate 2 Event.tick ++ [.reset] := ⟨id, rfl⟩
theorem witness_ResetEventRestoresResetValues :
    let s := queued [.reset, .reset] (regs [(1#4, 5#8)])
    s.env.events = .reset :: [.reset] ∧ [Event.reset] = .reset :: [] ∧
      (0x04F < s.params.fontBase.toNat ∧ s.params.fontBase.toNat + 80 ≤ 0x0A0) ∧ Piece.pc ≠ .env := by decide
theorem witness_ResetStateIsTheSpecs : (0x04F < 0x050 ∨ 0x0A0 ≤ 0x04F) ∧ (0x0A0 < 0x050 ∨ 0x0A0 ≤ 0x0A0) := by decide

/-- An image of 3584 and one of 3585 bytes, before the first cycle, under both values of P_LOADER_OVERSIZE. -/
theorem witness_LoadWritesTheImageAtTheProgramBase :
    (∀ image : List Byte, (queued [.load image]).env.events = .load image :: [] ∧ (queued [.load image]).env.started = false) ∧
    (List.replicate 3584 1#8).length ≤ 3584 ∧ 3584 < (List.replicate 3585 1#8).length ∧
    (queued [.load []]).params.loaderOversize = .reject ∧
    ({ queued [.load []] with params := { Config.defaults with loaderOversize := .truncate } } : State).params.loaderOversize =
      .truncate := by
  refine ⟨fun _ => ⟨rfl, rfl⟩, ?_, ?_, rfl, rfl⟩ <;> rw [List.length_replicate]
  decide
theorem witness_LoadDuringARunIsRefused :
    (queued [.load [1#8]] State.reset.sampleHeld).env.events = .load [1#8] :: [] ∧
      (queued [.load [1#8]] State.reset.sampleHeld).env.started = true := by decide

theorem witness_SkipsCompareRegisters :
    State.reset.getV 0 = 0#8 ∧ ¬(regs [(0#4, 1#8)]).getV 0 = 0#8 ∧ (regs [(0#4, 1#8)]).getV 0 ≠ (regs [(0#4, 1#8)]).getV 1 ∧
      ¬State.reset.getV 0 ≠ State.reset.getV 1 := by decide
/-- Key 15 pressed and not pressed, and V[X] past 15: its low nibble names key 12. -/
theorem witness_SkipsReadTheKeys :
    (0x8000#16).getLsbD (0xFF % 16) = true ∧ (0x7FFF#16).getLsbD (0xFF % 16) = false ∧ (0x1000#16).getLsbD (0x1C % 16) = true := by
  decide
theorem witness_CallPushesAndJumps :
    State.reset.sp.val < 16 ∧ ({ State.reset with sp := 15 } : State).sp.val < 16 ∧
      ({ State.reset with sp := 16 } : State).sp.val = 16 := by decide
theorem witness_RetPopsAndReturns :
    0 < ({ State.reset with sp := 1 } : State).sp.val ∧ 0 < ({ State.reset with sp := 16 } : State).sp.val ∧
      State.reset.sp.val = 0 := by decide
theorem witness_RetReturnsAfterTheCall : ({ State.reset with sp := 15 } : State).sp.val < 16 := by decide
theorem witness_RndMasksTheRandomByte :
    (State.samplePorts State.reset 0#16 0xAB#8).env.rnd = some 0xAB#8 ∧ State.reset.env.rnd = none ∧
      (0x7F#8).getLsbD 7 = false := by decide
/-- The three cases of WriteWithFlag, and with them those of ADD, SUB, SUBN, SHR and SHL. -/
theorem witness_SumsAndDifferencesSetVF :
    0xE#4 ≠ VF ∧ (0xF#4 = VF ∧ State.reset.params.flagOrder = .flagLast) ∧
      (0xF#4 = VF ∧ ({ Config.defaults with flagOrder := .dataLast } : Params).flagOrder = .dataLast) := by decide
theorem witness_ShiftsSetVFToTheBitShiftedOut :
    0x0#4 ≠ VF ∧ (0xF#4 = VF ∧ State.reset.params.flagOrder = .flagLast) ∧
      (0xF#4 = VF ∧ ({ Config.defaults with flagOrder := .dataLast } : Params).flagOrder = .dataLast) := by decide
theorem witness_SameRegisterAsBothOperands : 0xE#4 ≠ VF ∧ 0xF#4 = VF ∧ State.reset.params.flagOrder = .flagLast := by decide

/-- The reset state with I given, stores below 0x200 faulting. -/
def lowFaults (i : Word) : State := { State.reset.setI i with params := { Config.defaults with lowMemoryWrites := .fault } }

theorem witness_BcdStoresThreeDigitsAtI :
    ((State.reset.setI 0xFFD#16).I.toNat + 2 ≤ 0xFFF ∧ (State.reset.setI 0xFFD#16).params.lowMemoryWrites = .allow) ∧
    ((lowFaults 0x200#16).I.toNat + 2 ≤ 0xFFF ∧ 0x200 ≤ (lowFaults 0x200#16).I.toNat) ∧
    0xFFF < (State.reset.setI 0xFFE#16).I.toNat + 2 ∧
    ((lowFaults 0x1FF#16).params.lowMemoryWrites = .fault ∧ (lowFaults 0x1FF#16).I.toNat < 0x200) := by decide
theorem witness_StoreRegistersAtI :
    ((State.reset.setI 0xFF0#16).I.toNat + (15#4).toNat ≤ 0xFFF ∧ (State.reset.setI 0xFF0#16).params.lowMemoryWrites = .allow) ∧
    ((lowFaults 0x200#16).I.toNat + (15#4).toNat ≤ 0xFFF ∧ 0x200 ≤ (lowFaults 0x200#16).I.toNat) ∧
    0xFFF < (State.reset.setI 0xFF1#16).I.toNat + (15#4).toNat ∧
    ((lowFaults 0x1FF#16).params.lowMemoryWrites = .fault ∧ (lowFaults 0x1FF#16).I.toNat < 0x200) := by decide
theorem witness_LoadRegistersFromI :
    (State.reset.setI 0xFFF#16).I.toNat + (0#4).toNat ≤ 0xFFF ∧ 0xFFF < (State.reset.setI 0xFFF#16).I.toNat + (1#4).toNat := by
  decide
theorem witness_LoadAfterStoreGivesTheRegistersBack :
    (State.reset.setI 0xFF0#16).I.toNat + (15#4).toNat ≤ 0xFFF ∧ (State.reset.setI 0xFF0#16).params.lowMemoryWrites = .allow := by
  decide

/-- One byte at 0xFFF, whose leftmost column is set. -/
def pixelAtTop : State := (State.reset.storeBytes 0xFFF [0x80#8]).setI 0xFFF#16

theorem pixelAtTop_covers : pixelAtTop.Covers 0#4 1#4 1#4 0 0 :=
  ⟨0, 0, by decide, by decide, ⟨fun _ => by decide, fun h => (by cases h)⟩, by decide, .inl (by decide)⟩

/-- The other bit order: bit 0 is the leftmost column (log 13). -/
theorem pixelAtTop_covers_lsb_left :
    ({ (State.reset.storeBytes 0xFFF [0x01#8]).setI 0xFFF#16 with
        params := { Config.defaults with spriteBitOrder := .lsbLeft } } : State).Covers 0#4 1#4 1#4 0 0 :=
  ⟨0, 0, by decide, by decide, ⟨fun h => (by cases h), fun _ => by decide⟩, by decide, .inl (by decide)⟩

theorem witness_DrwTogglesTheCoveredCells :
    pixelAtTop.I.toNat + (1#4).toNat ≤ 0x1000 ∧ pixelAtTop.Covers 0#4 1#4 1#4 0 0 ∧ cell pixelAtTop.fb 0 0 = false ∧
    (∃ s : State, s.Covers 0#4 1#4 1#4 0 0 ∧ cell s.fb 0 0 = true) ∧
    (¬∃ row col, State.reset.Covers 0#4 1#4 0#4 row col ∧ cell State.reset.fb row col = true) ∧
    (2#4 ≠ 0#4 ∧ 0x1000 < pixelAtTop.I.toNat + (2#4).toNat) :=
  ⟨by decide, pixelAtTop_covers, by decide,
    ⟨{ pixelAtTop with fb := State.reset.fb.set 0 true }, pixelAtTop_covers, by decide⟩,
    fun ⟨_, _, ⟨r, _, h, _⟩, _⟩ => absurd h (Nat.not_lt_zero r), by decide⟩
theorem witness_DrawingTwiceRestoresTheScreen :
    0#4 ≠ VF ∧ 1#4 ≠ VF ∧ pixelAtTop.I.toNat + (1#4).toNat ≤ 0x1000 := by decide

/-- Both of its cases occur: a Load during a run and one before it. -/
theorem witness_EveryEventHasANextState :
    (queued [.load []] State.reset.sampleHeld).env.started = true ∧ (queued [.load []]).env.started = false := by decide
theorem witness_EveryInstructionHasANextState : ∃ t f, exec .ret State.reset = .next t ∧ t.status = .faulted f :=
  ⟨_, _, rfl, rfl⟩
theorem witness_FaultsArePrecise :
    ∃ t, step State.reset = .next t ∧ (∀ g, State.reset.status ≠ .faulted g) ∧
      t.status = .faulted ⟨.decodeError, 0x200#16, some 0#16⟩ := by
  obtain ⟨t, h, k⟩ := answer_some (P := fun t => t.status == faultAt200 .decodeError 0#16) (o := step State.reset) (by decide)
  exact ⟨t, h, fun g e => (by cases e), eq_of_beq k⟩
theorem witness_TerminalStatusIsLeftOnlyByReset :
    let s := queued [.tick] (State.reset.setStatus .halted)
    s.status.Terminal ∧ ¬Resets s ∧ ∃ t, step s = .next t := ⟨trivial, fun ⟨_, h⟩ => (by cases h), _, rfl⟩
theorem witness_ScreenChangesOnlyByClsDrwOrReset :
    let s : State := { clsAtTop with fb := State.reset.fb.set 65 true }
    ∃ t, step s = .next t ∧ cell t.fb 1 1 ≠ cell s.fb 1 1 := by
  intro s
  obtain ⟨t, h, k⟩ := answer_some (P := fun t => cell t.fb 1 1 != cell s.fb 1 1) (o := step s) (by decide)
  exact ⟨t, h, bne_iff_ne.1 k⟩
theorem witness_TimersChangeOnlyByTickOrSet :
    let s : State := { queued [.tick] with dt := 1#8, st := 1#8 }
    ∃ t, step s = .next t ∧ t.dt ≠ s.dt ∧ t.st ≠ s.st := ⟨_, rfl, by decide, by decide⟩
/-- A store and a load each change a byte. -/
theorem witness_MemoryChangesOnlyByStoresLoadOrReset :
    let s := ((regs [(0#4, 0xEE#8)]).setI 0xFFF#16).withFetchWord 16 0xF055
    (∃ t, step s = .next t ∧ t.readByte 0xFFF ≠ s.readByte 0xFFF) ∧
      ∃ t, step (queued [.load [1#8]]) = .next t ∧ t.readByte 0x200 ≠ (queued [.load [1#8]]).readByte 0x200 := by
  intro s
  obtain ⟨t, h, k⟩ := answer_some (P := fun t => t.readByte 0xFFF != s.readByte 0xFFF) (o := step s) (by decide)
  obtain ⟨u, h', k'⟩ := answer_some (P := fun t => t.readByte 0x200 != (queued [.load [1#8]]).readByte 0x200)
    (o := step (queued [.load [1#8]])) (by decide)
  exact ⟨⟨t, h, bne_iff_ne.1 k⟩, u, h', bne_iff_ne.1 k'⟩
theorem witness_StackChangesOnlyByCallOrRet :
    let s := State.reset.withFetchWord 16 0x2300
    ∃ t, step s = .next t ∧ t.sp ≠ s.sp ∧ t.stack[(0 : Fin 16)] ≠ s.stack[(0 : Fin 16)] := by
  intro s
  obtain ⟨t, h, k⟩ := answer_some (P := fun t => decide (t.sp ≠ s.sp ∧ t.stack[(0 : Fin 16)] ≠ s.stack[(0 : Fin 16)]))
    (o := step s) (by decide)
  exact ⟨t, h, of_decide_eq_true k⟩
/-- ADD I,V1 changes I and VF. -/
theorem witness_RegistersChangeOnlyByTheirWriters :
    let s := ((regs [(1#4, 1#8)]).setI 0xFFF#16).withFetchWord 16 0xF11E
    ∃ t, step s = .next t ∧ t.getV VF ≠ s.getV VF ∧ t.I ≠ s.I := by
  intro s
  obtain ⟨t, h, k⟩ := answer_some (P := fun t => decide (t.getV VF ≠ s.getV VF ∧ t.I ≠ s.I)) (o := step s) (by decide)
  exact ⟨t, h, of_decide_eq_true k⟩
/-- A key wait that ends writes its register. -/
theorem witness_RegistersChangeOnlyByTheirWriters_wait :
    let s := waiting .edge 0x0000#16 0x0020#16
    (∃ c, s.BeginsCycle c) ∧ s.status = .awaitingKey 2#4 ∧ ∃ t, step s = .next t ∧ t.getV 2#4 ≠ s.getV 2#4 := by
  intro s
  obtain ⟨t, h, k⟩ := answer_some (P := fun t => t.getV 2#4 != s.getV 2#4) (o := step s) (by decide)
  exact ⟨⟨_, .inr ⟨_, _, _, rfl, rfl⟩⟩, rfl, t, h, bne_iff_ne.1 k⟩
/-- A fault (RET on an empty stack), a skip and a plain instruction, each at the last word of memory. -/
theorem witness_PcAfterACycleThatExecutes :
    let top := State.reset.setPc 0xFFE#16
    [0x00EE, 0x3000, 0x00E0].map (fun w => ((top.withFetchWord 16 w).status, (top.withFetchWord 16 w).pc,
        decode (top.withFetchWord 16 w).fetchWord)) =
      [(.running, 0xFFE#16, .op .ret), (.running, 0xFFE#16, .op (.seImm 0#4 0#8)), (.running, 0xFFE#16, .op .cls)] ∧
    (∀ w, ∃ c, (top.withFetchWord 16 w).BeginsCycle c) ∧
    (after 0x00EE top State.status = some (.faulted ⟨.stackUnderflow, 0xFFE#16, some 0x00EE#16⟩)) ∧
    (after 0x3000 top State.status = some .running ∧ ¬Jumps (.seImm 0#4 0#8)) ∧
    (after 0x00E0 top State.status = some .running ∧ ¬Jumps .cls) :=
  ⟨by decide, fun _ => ⟨_, .inl ⟨rfl, rfl⟩⟩, by decide, ⟨by decide, id⟩, by decide, id⟩
theorem witness_DisplayUpdateExactlyAfterADraw :
    clsAtTop.BeginsCycle clsAtTop.sampleHeld ∧ (∃ t, step clsAtTop = .next t ∧ (t.displayUpdate && t.status == .running) = true) ∧
      State.reset.BeginsCycle State.reset.sampleHeld ∧ ∃ t, step State.reset = .next t ∧ (!t.displayUpdate) = true :=
  ⟨.inl ⟨rfl, rfl⟩, answer_some (by decide), .inl ⟨rfl, rfl⟩, answer_some (P := fun t => !t.displayUpdate) (by decide)⟩
theorem witness_ParametersNeverChange : (∃ t, step (queued [.reset]) = .next t) ∧ ∃ t, exec .cls State.reset = .next t :=
  ⟨⟨_, rfl⟩, _, rfl⟩
theorem witness_OnlyRndReadsTheRandomByte : ∀ x nn, Instr.skp 0#4 ≠ .rnd x nn := fun _ _ h => by cases h
theorem witness_OnlyKeyInstructionsReadTheKeys :
    ∀ x, Instr.cls ≠ .skp x ∧ Instr.cls ≠ .sknp x ∧ Instr.cls ≠ .ldVxK x :=
  fun _ => ⟨fun h => (by cases h), fun h => (by cases h), fun h => (by cases h)⟩
theorem witness_NoInstructionReadsTheSoundTimerOrTheLatch :
    (∀ x, Instr.ldVxDt 0#4 ≠ .ldStVx x) ∧ (∃ x, Instr.ldStVx 0#4 = .ldStVx x) ∧ (∀ x, Instr.skp 0#4 ≠ .ldVxK x) ∧
      ∃ x, Instr.ldVxK 0#4 = .ldVxK x :=
  ⟨fun _ h => (by cases h), ⟨_, rfl⟩, fun _ h => (by cases h), _, rfl⟩

/-- A halted state at the invariant's bounds: pc 0x10FE, return addresses 0x1000, a byte listed at each end of memory. -/
def boundary : State :=
  { State.reset with
    pc := 0x10FE#16, status := .halted, sp := 16, stack := Vector.replicate 16 0x1000#16
    mem := [(0x000, 1#8), (0x050, 0#8), (0xFFF, 0xFF#8)] }

theorem witness_StepKeepsTheInvariant : boundary.Inv ∧ ∃ t, step boundary = .next t :=
  ⟨⟨by decide, by decide, by decide, fun _ => by decide⟩, _, rfl⟩

/-- A state before any cycle, and one that a stack overflow left. -/
theorem witness_StepKeepsFaultRecordsTrue :
    let s := (({ State.reset with sp := 16, env := { State.reset.env with started := true } } : State).storeBytes 0x200
      [0x22#8, 0x00#8]).setStatus (faultAt200 .stackOverflow 0x2200#16)
    s.FaultInv ∧ (∃ t, step s = .next t) ∧ (queued [.load [1#8]]).FaultInv ∧ ∃ t, step (queued [.load [1#8]]) = .next t :=
  ⟨⟨fun h => (by cases h), fun f h => (by cases h; exact ⟨rfl, by decide, ⟨0x200#12, by decide⟩, rfl⟩)⟩, ⟨_, rfl⟩,
    ⟨fun _ => rfl, fun f h => (by cases h)⟩, _, rfl⟩
/-- The record of an access at I: DXYN past 0xFFF, and FX55 below 0x200 under fault. -/
theorem witness_StepKeepsFaultRecordsTrue_bounds :
    let started (s : State) : State := { s with env := { s.env with started := true } }
    let draw := started (((State.reset.setI 0xFFF#16).storeBytes 0x200 [0xD0#8, 0x12#8]).setStatus
      (faultAt200 (.memoryBoundsError 0xFFF#16 2) 0xD012#16))
    let store := started (((lowFaults 0x1FF#16).storeBytes 0x200 [0xF0#8, 0x55#8]).setStatus
      (faultAt200 (.memoryBoundsError 0x1FF#16 1) 0xF055#16))
    draw.FaultInv ∧ (∃ t, step draw = .next t) ∧ store.FaultInv ∧ ∃ t, step store = .next t :=
  ⟨⟨fun h => (by cases h), fun f h => (by
      cases h
      exact ⟨rfl, .inr ⟨by decide, rfl, .drw 0#4 1#4 2#4, by decide, rfl, by decide, .inl (by decide)⟩⟩)⟩, ⟨_, rfl⟩,
    ⟨fun h => (by cases h), fun f h => (by
      cases h
      exact ⟨rfl, .inr ⟨by decide, rfl, .storeRegs 0#4, by decide, rfl, by decide, .inr ⟨trivial, rfl, by decide⟩⟩⟩)⟩, _, rfl⟩
theorem witness_CanonicalMemoriesWithEqualBytesAreEqual :
    Memory.wf Config.defaults [(0x050, 0x00#8), (0xFFF, 0x01#8)] ∧
      ∀ a, Memory.read Config.defaults [(0x050, 0x00#8), (0xFFF, 0x01#8)] a =
        Memory.read Config.defaults (Memory.write Config.defaults [(0xFFF, 0x01#8)] 0x050 0x00#8) a :=
  ⟨by decide, fun _ => rfl⟩
theorem witness_PlacedWordRunsNext : decodeTableWord 16 0xD125 = some (.drw 1#4 2#4 5#4) := by decide

end Sys2Proof.Tests
end

section
/-! The statements of the scope: the parameters and the environment's side under steps and instructions (00_scope.md R6, R25,
R29), and the state after reset (10_state.md R36, 20_memory.md R42). -/

namespace Sys2Proof.Machine

variable {s t : State}

/-! ### The parameters and the environment's side -/

theorem not_mayChange_params (i : Instr) (s : State) : ¬MayChange i s .params := by
  cases i <;> simp [MayChange]

theorem not_mayChange_env (i : Instr) (s : State) : ¬MayChange i s .env := by
  cases i <;> simp [MayChange]

theorem exec_params (i : Instr) (h : exec i s = .next t) : t.params = s.params :=
  exec_frame i h .params (not_mayChange_params i s)

theorem exec_env (i : Instr) (h : exec i s = .next t) : t.env = s.env :=
  exec_frame i h .env (not_mayChange_env i s)

@[simp] theorem State.waitPoll_params (s : State) (x : Nibble) : (s.waitPoll x).params = s.params :=
  waitPoll_frame s x .params (by simp)

@[simp] theorem State.tick_params (s : State) : s.tick.params = s.params :=
  tick_frame s .params (by simp)

@[simp] theorem State.resetEvent_params (s : State) : s.resetEvent.params = s.params := rfl

@[simp] theorem State.loadImage_params (s : State) (image : List Byte) : (s.loadImage image).params = s.params := rfl

@[simp] theorem State.load_params (s : State) (image : List Byte) : (s.load image).params = s.params := by
  unfold State.load
  split
  · exact s.loadImage_params image
  · split
    · rfl
    · exact s.loadImage_params _

theorem BeginsCycle_params {c : State} (h : s.BeginsCycle c) : c.params = s.params :=
  BeginsCycle_frame h .params (by simp)

theorem cycle_params (h : cycle s = .next t) : t.params = s.params := by
  obtain ⟨_, rfl⟩ | ⟨x, _, rfl⟩ | ⟨_, _, rfl⟩ | ⟨_, _, rfl⟩ | ⟨w, _, _, rfl⟩ | ⟨i, _, _, he⟩ := cycle_next_cases h
  · rfl
  · exact s.waitPoll_params x
  · exact s.setStatus_params _
  · exact s.takeFault_params _ _ _
  · exact s.takeFault_params _ _ _
  · rw [exec_params i he, s.advance_params]

/-- No event writes the parameters (R6; log 1). -/
theorem step_params (h : step s = .next t) : t.params = s.params := by
  obtain ⟨c, hb, hc⟩ | ⟨_, _, rfl⟩ | ⟨_, _, rfl⟩ | ⟨image, _, _, _, rfl⟩ := step_next_cases h
  · rw [cycle_params hc, BeginsCycle_params hb]
  · rw [State.tick_params, State.dropEvent_params]
  · rw [State.resetEvent_params, State.dropEvent_params]
  · rw [State.load_params, State.dropEvent_params]

/-! ### Memory that lists nothing -/

/-- The entries of a vector of vectors, row after row, are those of its flattening. -/
theorem vector_toList_flatten {α : Type} {m n : Nat} (rows : Vector (Vector α m) n) :
    rows.flatten.toList = (rows.toList.map Vector.toList).flatten := by
  rw [Vector.flatten, Vector.toList, Array.toList_flatten, Array.toList_map, List.map_map]
  rfl

namespace Memory

/-- The 80 bytes from the font base are the glyphs in order, row after row (R41). -/
theorem readBytes_nil_font (p : Params) :
    readBytes p [] p.fontBase.toNat 80 = (p.fontData.toList.map Vector.toList).flatten := by
  rw [← vector_toList_flatten]
  refine List.ext_getElem (by simp) fun j hj _ => ?_
  rw [length_readBytes] at hj
  have hu := unlisted_font p ⟨j / 5, by omega⟩ ⟨j % 5, by omega⟩
  rw [Nat.add_assoc, Nat.div_add_mod] at hu
  rw [getElem_readBytes, read_nil, Vector.getElem_toList, Vector.getElem_flatten]
  exact hu

end Memory

end Sys2Proof.Machine

namespace Sys2Proof.Proofs

open Sys2Proof.Machine Sys2Proof.Claims

/-! ### The state after reset (10_state.md R36) -/

theorem reset_getV (x : Nibble) : State.reset.getV x = 0 := by
  simp [State.getV, State.reset]

theorem reset_stack (j : Fin 16) : State.reset.stack[j] = 0 := by
  simp [State.reset]

theorem reset_cell (y : Fin 32) (x : Fin 64) : cell State.reset.fb y x = false := cell_clearFb y x

/-- The default font is the table of R42. -/
theorem defaults_fontData : Config.defaults.fontData.toList.map Vector.toList = fontTable := by decide

theorem reset_readBytes_font : State.reset.readBytes 0x050 80 = fontTable.flatten := by
  rw [← defaults_fontData]
  exact Memory.readBytes_nil_font Config.defaults

theorem reset_readByte_outside_font {a : Nat} (h : a < 0x050 ∨ 0x0A0 ≤ a) : State.reset.readByte a = 0 :=
  unlisted_zero Config.defaults a h

/-! ### The statements -/

/-- Settles O52: the frames of the events and of the instructions name neither the parameters nor, for an instruction, the
environment's side. -/
theorem parametersNeverChange : Obligations.ParametersNeverChange :=
  ⟨fun _ _ => step_params, fun i _ _ h => ⟨exec_params i h, exec_env i h⟩⟩

/-- Settles O14: each field by its definition, the font by the bytes of memory that lists nothing. -/
theorem resetStateIsTheSpecs : Obligations.ResetStateIsTheSpecs :=
  ⟨rfl, rfl, reset_getV, rfl, rfl, reset_stack, rfl, rfl, rfl, reset_cell, rfl, rfl, rfl, defaults_fontData, rfl, rfl, rfl,
    rfl, rfl, rfl, reset_readBytes_font, fun _ => reset_readByte_outside_font⟩

end Sys2Proof.Proofs
end

section
/-! The decoder undone by the encoder: the word of a fault record that an instruction raises is the word fetched (log 10;
30_encoding.md R60, R67). -/

namespace Sys2Proof

variable {w : Word} {i : Instr}

/-- A word whose outer nibbles are known is assembled from them and its middle ones. -/
theorem word4_eq {op n : Nibble} (ho : (fieldOp w).toNat = op.toNat) (hn : (fieldN w).toNat = n.toNat) :
    word4 op (fieldX w) (fieldY w) n = w := by
  rw [← BitVec.eq_of_toNat_eq ho, ← BitVec.eq_of_toNat_eq hn, word4_fields]

theorem wordNN_eq {op : Nibble} {nn : Byte} (ho : (fieldOp w).toNat = op.toNat) (hn : fieldNN w = nn) :
    wordNN op (fieldX w) nn = w := by
  rw [← BitVec.eq_of_toNat_eq ho, ← hn, wordNN_fields]

theorem wordNNN_eq {op : Nibble} (ho : (fieldOp w).toNat = op.toNat) : wordNNN op (fieldNNN w) = w := by
  rw [← BitVec.eq_of_toNat_eq ho, wordNNN_fields]

theorem encode_of_decodeFamily0 (h : decodeFamily0 w = .op i) : encode i = w := by
  unfold decodeFamily0 at h
  split at h
  · cases h
    exact Eq.symm ‹_›
  · split at h <;> cases h
    exact Eq.symm ‹_›

theorem encode_of_decodeFamily5 (ho : (fieldOp w).toNat = 5) (h : decodeFamily5 w = .op i) : encode i = w := by
  unfold decodeFamily5 at h
  split at h <;> cases h
  exact word4_eq ho (congrArg BitVec.toNat ‹_›)

theorem encode_of_decodeFamily9 (ho : (fieldOp w).toNat = 9) (h : decodeFamily9 w = .op i) : encode i = w := by
  unfold decodeFamily9 at h
  split at h <;> cases h
  exact word4_eq ho (congrArg BitVec.toNat ‹_›)

theorem encode_of_decodeFamily8 (ho : (fieldOp w).toNat = 8) (h : decodeFamily8 w = .op i) : encode i = w := by
  unfold decodeFamily8 at h
  split at h <;> cases h
  all_goals exact word4_eq ho ‹_›

theorem encode_of_decodeFamilyE (ho : (fieldOp w).toNat = 14) (h : decodeFamilyE w = .op i) : encode i = w := by
  simp only [decodeFamilyE] at h
  repeat' split at h
  all_goals cases h
  all_goals exact wordNN_eq ho ‹_›

theorem encode_of_decodeFamilyF (ho : (fieldOp w).toNat = 15) (h : decodeFamilyF w = .op i) : encode i = w := by
  simp only [decodeFamilyF] at h
  repeat' split at h
  all_goals cases h
  all_goals exact wordNN_eq ho ‹_›

/-- A word that decodes to an instruction is its encoding. -/
theorem encode_of_decode (h : decode w = .op i) : encode i = w := by
  unfold decode at h
  split at h
  case h_1 => exact encode_of_decodeFamily0 h
  case h_6 ho => exact encode_of_decodeFamily5 ho h
  case h_9 ho => exact encode_of_decodeFamily8 ho h
  case h_10 ho => exact encode_of_decodeFamily9 ho h
  case h_15 ho => exact encode_of_decodeFamilyE ho h
  case h_16 =>
    simp only [imp_false] at *
    exact encode_of_decodeFamilyF (by omega) h
  case h_14 ho =>
    cases h
    exact word4_eq (op := 0xD#4) ho rfl
  case h_2 ho | h_3 ho | h_11 ho | h_12 ho =>
    cases h
    exact wordNNN_eq ho
  case h_4 ho | h_5 ho | h_7 ho | h_8 ho | h_13 ho =>
    cases h
    exact wordNN_eq ho rfl

/-- A decode failure carries the word (R59). -/
theorem decode_failure_word {v : Word} (h : decode w = .failure v) : v = w := by
  simp only [decode, decodeFamily0, decodeFamily5, decodeFamily8, decodeFamily9, decodeFamilyE, decodeFamilyF] at h
  repeat' split at h
  all_goals cases h
  all_goals rfl

end Sys2Proof
end

section
/-! What an instruction that does not fault leaves: the pc, the outputs, the stack and the list of memory. The frame `exec_frame`
speaks of single pieces and allows what a fault writes; these lemmas say what is left once a fault is excluded. -/

namespace Sys2Proof.Machine

open Sys2Proof.Claims

variable {s t : State} {i : Instr}

/-! ### The instructions with a check -/

/-- The status after a fault was raised, for cases where none was. -/
theorem raiseFault_faulted (s : State) (i : Instr) (c : Cause) : ¬∀ f, (s.raiseFault i c).status ≠ .faulted f :=
  fun hn => hn _ rfl

theorem guarded_completes {k : Option Cause} {rest : State} (h : guarded s i k rest = .next t)
    (hn : ∀ f, t.status ≠ .faulted f) : t = rest := by
  cases k with
  | none => exact (Host.Outcome.next.inj h).symm
  | some c =>
    rw [← Host.Outcome.next.inj h] at hn
    exact absurd hn (raiseFault_faulted s i c)

/-- What CALL leaves where the stack has room (R87). -/
def State.afterCall (s : State) (nnn : Addr) (hs : s.sp.val < 16) : State :=
  { s with stack := s.stack.set s.sp.val s.pc hs, sp := ⟨s.sp.val + 1, by omega⟩, pc := zext16 nnn }

/-- What RET leaves where an entry is in use (R85). -/
def State.afterRet (s : State) (hs : 0 < s.sp.val) : State :=
  { s with sp := ⟨s.sp.val - 1, by omega⟩, pc := s.stack[s.sp.val - 1] }

theorem exec_call_room (s : State) (nnn : Addr) (hs : s.sp.val < 16) :
    exec (.call nnn) s = .next (s.afterCall nnn hs) := by
  simp only [exec, execCall, s.push_eq _ hs]
  rfl

theorem exec_call_full (s : State) (nnn : Addr) (hs : s.sp.val = 16) :
    exec (.call nnn) s = .next (s.raiseFault (.call nnn) .stackOverflow) := by
  simp only [exec, execCall, s.push_full _ hs]

theorem exec_ret_pops (s : State) (hs : 0 < s.sp.val) :
    exec .ret s = .next (s.afterRet hs) := by
  simp only [exec, execRet, s.pop_eq hs]
  rfl

theorem exec_ret_empty (s : State) (hs : s.sp.val = 0) : exec .ret s = .next (s.raiseFault .ret .stackUnderflow) := by
  simp only [exec, execRet, s.pop_empty hs]

theorem exec_call_cases {nnn : Addr} (h : exec (.call nnn) s = .next t) :
    t = s.raiseFault (.call nnn) .stackOverflow ∨ ∃ hs : s.sp.val < 16, t = s.afterCall nnn hs := by
  by_cases hs : s.sp.val < 16
  · exact .inr ⟨hs, Host.Outcome.next.inj (h.symm.trans (exec_call_room s nnn hs))⟩
  · exact .inl (Host.Outcome.next.inj (h.symm.trans (exec_call_full s nnn (by omega))))

theorem exec_ret_cases (h : exec .ret s = .next t) :
    t = s.raiseFault .ret .stackUnderflow ∨ ∃ hs : 0 < s.sp.val, t = s.afterRet hs := by
  by_cases hs : 0 < s.sp.val
  · exact .inr ⟨hs, Host.Outcome.next.inj (h.symm.trans (exec_ret_pops s hs))⟩
  · exact .inl (Host.Outcome.next.inj (h.symm.trans (exec_ret_empty s (by omega))))

/-! ### The pc (41_control_flow.md R84) -/

theorem skipIf_pc (c : Bool) : (s.skipIf c).pc = s.pc ∨ (s.skipIf c).pc = s.pc + 2 := by
  cases c
  · exact .inl rfl
  · exact .inr rfl

/-- An instruction that does not set the pc itself leaves it, or skips. -/
theorem exec_pc (h : exec i s = .next t) (hn : ∀ f, t.status ≠ .faulted f) (hj : ¬Jumps i) :
    t.pc = s.pc ∨ Skips i ∧ t.pc = s.pc + 2 := by
  have keep : ¬MayChange i s .pc → t.pc = s.pc ∨ Skips i ∧ t.pc = s.pc + 2 := fun hp => .inl (exec_frame i h _ hp)
  cases i with
  | ret | jp _ | call _ | jpV0 _ => exact absurd trivial hj
  | seImm _ _ | sneImm _ _ | seReg _ _ | sneReg _ _ | skp _ | sknp _ =>
    rw [← Host.Outcome.next.inj h]
    exact (skipIf_pc _).imp_right fun e => ⟨trivial, e⟩
  | drw _ _ _ | ldBVx _ | storeRegs _ =>
    cases guarded_completes h hn
    exact .inl rfl
  | loadRegs x =>
    cases guarded_completes h hn
    rw [s.setVs_eq]
    exact .inl rfl
  | _ => exact keep (by simp [MayChange])

theorem jpV0_target (nnn : Addr) (b : Byte) : (zext16 nnn + zext16Byte b).toNat = nnn.toNat + b.toNat := by
  have := nnn.isLt
  have := b.isLt
  rw [BitVec.toNat_add, zext16_toNat, zext16Byte_toNat]
  omega

/-- A jump stays within the bound of R17, where the stack holds no return address past memory. -/
theorem exec_jump_le (h : exec i s = .next t) (hn : ∀ f, t.status ≠ .faulted f) (hj : Jumps i)
    (hs : ∀ j : Fin 16, s.stack[j].toNat ≤ 0x1000) : t.pc.toNat ≤ 0x10FE := by
  cases i with
  | jp nnn =>
    have := nnn.isLt
    rw [← Host.Outcome.next.inj h, State.setPc_pc, zext16_toNat]
    omega
  | jpV0 nnn =>
    have := nnn.isLt
    have := (s.getV 0#4).isLt
    rw [← Host.Outcome.next.inj h, State.setPc_pc, jpV0_target]
    omega
  | call nnn =>
    obtain rfl | ⟨_, rfl⟩ := exec_call_cases h
    · exact absurd hn (raiseFault_faulted s _ _)
    · have := nnn.isLt
      simp only [State.afterCall, zext16_toNat]
      omega
  | ret =>
    obtain rfl | ⟨hp, rfl⟩ := exec_ret_cases h
    · exact absurd hn (raiseFault_faulted s _ _)
    · exact Nat.le_trans (hs ⟨s.sp.val - 1, by omega⟩) (by decide)
  | _ => exact absurd hj id

/-! ### The stack, the output display_update, the status -/

/-- The one value an instruction can put on the stack is the pc it runs with (R87). -/
theorem exec_stack (h : exec i s = .next t) (j : Fin 16) : t.stack[j] = s.stack[j] ∨ t.stack[j] = s.pc := by
  have keep : ¬MayChange i s (.stackEntry j) → t.stack[j] = s.stack[j] := fun hp => exec_frame i h _ hp
  cases i with
  | call nnn =>
    obtain rfl | ⟨hs, rfl⟩ := exec_call_cases h
    · exact .inl rfl
    · by_cases hj : s.sp.val = j.val
      · exact .inr (by simp [State.afterCall, ← hj])
      · exact .inl (Vector.getElem_set_ne hs j.isLt hj)
  | _ => exact .inl (keep (by simp [MayChange]))

/-- The display is told by 00E0 and DXYN and by nothing else (R31, R117). -/
theorem exec_displayUpdate (h : exec i s = .next t) (hn : ∀ f, t.status ≠ .faulted f) (hs : s.displayUpdate = false) :
    t.displayUpdate = true ↔ Draws i := by
  have keep : t.displayUpdate = s.displayUpdate → ¬Draws i → (t.displayUpdate = true ↔ Draws i) := fun he hd => by
    simp [he, hs, hd]
  cases i with
  | cls =>
    rw [← Host.Outcome.next.inj h]
    exact iff_of_true rfl trivial
  | drw x y n =>
    cases guarded_completes h hn
    exact iff_of_true rfl trivial
  | ret =>
    obtain rfl | ⟨_, rfl⟩ := exec_ret_cases h
    · exact absurd hn (raiseFault_faulted s _ _)
    · exact keep rfl id
  | call nnn =>
    obtain rfl | ⟨_, rfl⟩ := exec_call_cases h
    · exact absurd hn (raiseFault_faulted s _ _)
    · exact keep rfl id
  | ldBVx _ | storeRegs _ =>
    cases guarded_completes h hn
    exact keep rfl id
  | loadRegs x =>
    cases guarded_completes h hn
    exact keep (by rw [s.setVs_eq]) id
  | _ => exact keep (exec_frame _ h .displayUpdate (by simp [MayChange])) id

/-- No instruction halts the machine: the halt is the cycle's (R74). -/
theorem exec_not_halted (h : exec i s = .next t) (hs : s.status = .running) : t.status ≠ .halted := by
  obtain ⟨c, _, rfl⟩ | ⟨x, _, hx⟩ | he := exec_status i h
  · simp
  · simp [hx]
  · simp [he, hs]

/-! ### Memory -/

/-- The list of memory is as before, or bytes that all lie in memory were stored at I. -/
def StoresInMemory (s t : State) : Prop :=
  t.mem = s.mem ∨
    ∃ bs : List Byte, s.I.toNat + bs.length ≤ Config.memSize ∧ t.mem = Memory.writeBytes s.params s.mem s.I.toNat bs

theorem StoresInMemory.keeps_wf (h : StoresInMemory s t) (hm : Memory.wf s.params s.mem) : Memory.wf s.params t.mem := by
  obtain he | ⟨bs, hb, he⟩ := h
  · exact he ▸ hm
  · exact he ▸ Memory.wf_writeBytes s.params hm hb

theorem guarded_storesInMemory {k : Option Cause} {rest : State} (h : guarded s i k rest = .next t)
    (hr : k = none → StoresInMemory s rest) : StoresInMemory s t := by
  cases k with
  | some c =>
    rw [← Host.Outcome.next.inj h]
    exact .inl rfl
  | none =>
    rw [← Host.Outcome.next.inj h]
    exact hr rfl

theorem storeBytes_storesInMemory {bs : List Byte} (hk : checkStore s.params s.I bs.length = none) (hb : bs ≠ []) :
    StoresInMemory s (s.storeBytes s.I.toNat bs) := by
  have hl := List.length_pos_of_ne_nil hb
  have := ((checkStore_eq_none _ _ _).1 hk).1
  exact .inr ⟨bs, by simp only [Config.memSize]; omega, rfl⟩

theorem exec_storesInMemory (h : exec i s = .next t) : StoresInMemory s t := by
  cases i with
  | ldBVx x => exact guarded_storesInMemory h fun hk => storeBytes_storesInMemory hk (by simp [bcdDigits])
  | storeRegs x =>
    exact guarded_storesInMemory h fun hk =>
      storeBytes_storesInMemory (by simpa using hk) (List.ne_nil_of_length_pos (by simp))
  | drw x y n => exact guarded_storesInMemory h fun _ => .inl rfl
  | loadRegs x => exact guarded_storesInMemory h fun _ => .inl (by rw [s.setVs_eq])
  | ret => obtain rfl | ⟨_, rfl⟩ := exec_ret_cases h <;> exact .inl rfl
  | call nnn => obtain rfl | ⟨_, rfl⟩ := exec_call_cases h <;> exact .inl rfl
  | seImm _ _ | sneImm _ _ | seReg _ _ | sneReg _ _ | skp _ | sknp _ =>
    rw [← Host.Outcome.next.inj h, s.skipIf_eq]
    exact .inl rfl
  | addReg _ _ | sub _ _ | shr _ _ | subn _ _ | shl _ _ =>
    rw [← Host.Outcome.next.inj h, s.writeWithFlag_eq]
    exact .inl rfl
  | addIVx x =>
    rw [← Host.Outcome.next.inj h, s.writeIWithFlag_eq]
    exact .inl rfl
  | _ =>
    rw [← Host.Outcome.next.inj h]
    exact .inl rfl

end Sys2Proof.Machine
end

section
/-! What a step can change and how it can enter Faulted: the two facts the safety claims rest on. -/

namespace Sys2Proof.Machine

open Sys2Proof.Claims

variable {s c t : State}

/-! ### The pieces a step may change -/

theorem advance_frame (s : State) : ChangesOnly [.pc] s s.advance := setPc_frame s _

/-- What an instruction may change depends on the state through I alone, which the start of a cycle leaves. -/
theorem mayChange_advance {i : Instr} {p : Piece} (hb : s.BeginsCycle c) (h : MayChange i c.advance p) : MayChange i s p := by
  rcases hb with ⟨_, rfl⟩ | ⟨_, _, _, _, rfl⟩ <;> exact h

theorem BeginsCycle_fetches (hb : s.BeginsCycle c) : c.Fetches ↔ s.Fetches := by
  simp only [State.Fetches, BeginsCycle_status hb, BeginsCycle_pc hb]

/-- The cycle of s executed an instruction of which P holds. -/
theorem executes_of_cycle {i : Instr} {P : Instr → Prop} (hb : s.BeginsCycle c) (hf : c.Fetches)
    (hd : decode c.fetchWord = .op i) (hP : P i) : Executes s P :=
  ⟨⟨c, hb⟩, (BeginsCycle_fetches hb).1 hf, i, BeginsCycle_fetchWord hb ▸ hd, hP⟩

/-- The pieces a cycle may change, apart from those its instruction changes: the outcome of its own checks and of the key poll. -/
def CycleMayChange (s : State) (p : Piece) : Prop :=
  p ∈ [.status, .pc, .displayUpdate, .env] ∨ ∃ x, s.status = .awaitingKey x ∧ p ∈ [.v x, .status, .klatch]

theorem cycle_frame (hb : s.BeginsCycle c) (h : cycle c = .next t) :
    ChangesOnlyWhere (fun p => CycleMayChange s p ∨ Executes s (MayChange · s p)) s t := by
  have hc : ChangesOnlyWhere (fun p => CycleMayChange s p ∨ Executes s (MayChange · s p)) s c :=
    (BeginsCycle_frame hb).mono (by simp [CycleMayChange])
  refine hc.trans ?_
  obtain ⟨_, rfl⟩ | ⟨x, hx, rfl⟩ | ⟨_, _, rfl⟩ | ⟨_, _, rfl⟩ | ⟨w, _, _, rfl⟩ | ⟨i, hf, hd, he⟩ := cycle_next_cases h
  · exact .refl _
  · exact (waitPoll_frame c x).mono fun p hp => .inl (.inr ⟨x, BeginsCycle_status hb ▸ hx, hp⟩)
  · exact (setStatus_frame c _).mono (by simp [CycleMayChange])
  · exact (takeFault_frame c _ _ _).mono (by simp [CycleMayChange])
  · exact (takeFault_frame c _ _ _).mono (by simp [CycleMayChange])
  · refine ((advance_frame c).mono (by simp [CycleMayChange])).trans ((exec_frame i he).mono ?_)
    exact fun p hp => .inr (executes_of_cycle hb hf hd (mayChange_advance hb hp))

theorem loadImage_frame (s : State) (image : List Byte) :
    ChangesOnlyWhere (fun p => p = .loadResult ∨ ∃ a, p = .byte a) s (s.loadImage image) := by
  intro p hp
  cases p with
  | loadResult => exact absurd (.inl rfl) hp
  | byte a => exact absurd (.inr ⟨a, rfl⟩) hp
  | _ => rfl

theorem load_frame (s : State) (image : List Byte) :
    ChangesOnlyWhere (fun p => p = .loadResult ∨ ∃ a, p = .byte a) s (s.load image) := by
  unfold State.load
  split
  · exact loadImage_frame s image
  · split
    · intro p hp
      cases p with
      | loadResult => exact absurd (.inl rfl) hp
      | _ => rfl
    · exact loadImage_frame s _

theorem tickEvent_frame (s : State) : ChangesOnly [.dt, .st, .env] s s.dropEvent.tick :=
  ((dropEvent_frame s).mono (by simp)).trans ((tick_frame _).mono (by simp))

theorem loadEvent_frame (s : State) (image : List Byte) :
    ChangesOnlyWhere (fun p => p = .env ∨ p = .loadResult ∨ ∃ a, p = .byte a) s (s.dropEvent.load image) :=
  ((dropEvent_frame s).mono (by simp)).trans ((load_frame _ image).mono fun _ hp => .inr hp)

/-- A PIECE THAT A STEP CHANGED was changed by a Reset, a Tick, a Load, the cycle's own checks or its key poll, or by the
instruction the cycle executed. -/
theorem step_change_cases (h : step s = .next t) (p : Piece) (hp : ¬p.Same s t) :
    Resets s ∨
      ((∃ rest, s.env.events = .tick :: rest) ∧ p ∈ [.dt, .st, .env]) ∨
      ((∃ image rest, s.env.events = .load image :: rest) ∧ (p = .env ∨ p = .loadResult ∨ ∃ a, p = .byte a)) ∨
      ((∃ c, s.BeginsCycle c ∧ cycle c = .next t) ∧ CycleMayChange s p) ∨
      Executes s (MayChange · s p) := by
  have change {P : Piece → Prop} (hf : ChangesOnlyWhere P s t) : P p := by
    by_contra hn
    exact hp (hf p hn)
  obtain ⟨c, hb, hc⟩ | ⟨rest, he, rfl⟩ | ⟨rest, he, rfl⟩ | ⟨image, rest, he, _, rfl⟩ := step_next_cases h
  · obtain hk | hk := change (cycle_frame hb hc)
    · exact .inr (.inr (.inr (.inl ⟨⟨c, hb, hc⟩, hk⟩)))
    · exact .inr (.inr (.inr (.inr hk)))
  · exact .inr (.inl ⟨⟨rest, he⟩, change (tickEvent_frame s)⟩)
  · exact .inl ⟨rest, he⟩
  · exact .inr (.inr (.inl ⟨⟨image, rest, he⟩, change (loadEvent_frame s image)⟩))

/-! ### The status after a step (10_state.md R26) -/

@[simp] theorem tick_status (s : State) : s.tick.status = s.status := tick_frame s .status (by simp)

@[simp] theorem load_status (s : State) (image : List Byte) : (s.load image).status = s.status :=
  load_frame s image .status (by simp)

/-- A key poll goes on waiting, or ends the wait and runs. -/
theorem waitPoll_cases (s : State) (x : Nibble) :
    s.waitPoll x = s.setKlatch s.env.keys ∨ (s.waitPoll x).status = .running := by
  unfold State.waitPoll
  split
  · exact .inl rfl
  · exact .inr rfl

/-! ### The environment's side after an event -/

@[simp] theorem tick_env (s : State) : s.tick.env = s.env := tick_frame s .env (by simp)

theorem cycle_env (h : cycle c = .next t) : t.env = c.env := by
  obtain ⟨_, rfl⟩ | ⟨x, _, rfl⟩ | ⟨_, _, rfl⟩ | ⟨_, _, rfl⟩ | ⟨w, _, _, rfl⟩ | ⟨i, _, _, he⟩ := cycle_next_cases h
  · rfl
  · exact waitPoll_frame c x .env (by simp)
  · exact c.setStatus_env _
  · exact c.takeFault_env _ _ _
  · exact c.takeFault_env _ _ _
  · rw [exec_env i he, c.advance_env]

/-! ### Entering Faulted (40_cycle.md R81, 60_exceptions.md R125) -/

/-- A fault that an instruction raises is taken at the address of the instruction. -/
theorem advance_raiseFault (c : State) (i : Instr) (k : Cause) :
    c.advance.raiseFault i k = c.takeFault k c.pc (some (encode i)) := by
  change c.takeFault k (c.pc + 2 - 2) (some (encode i)) = _
  rw [BitVec.add_sub_cancel]

/-- The record of a fault that an instruction raises is true of the state. -/
theorem RaisedBy.recordFits {i : Instr} {k : Cause} (hd : decode c.fetchWord = .op i) (h : RaisedBy i c k) :
    (c.takeFault k c.pc (some (encode i))).RecordFits ⟨k, c.pc, some (encode i)⟩ := by
  have hw : some (encode i) = some c.fetchWord := congrArg some (encode_of_decode hd)
  refine ⟨rfl, ?_⟩
  cases k with
  | decodeError => exact h.elim
  | stackOverflow =>
    obtain ⟨⟨nnn, rfl⟩, hs⟩ := h
    exact ⟨hw, ⟨nnn, hd⟩, Fin.ext hs⟩
  | stackUnderflow =>
    obtain ⟨rfl, hs⟩ := h
    exact ⟨hw, hd, Fin.ext hs⟩
  | memoryBoundsError base len =>
    obtain ⟨rfl, hr⟩ := h
    exact .inr ⟨hw, rfl, i, hd, hr⟩

/-- An instruction that runs raises a fault or does not end in Faulted. -/
theorem exec_faults_or {i : Instr} (h : exec i s = .next t) (hs : s.status = .running) :
    (∃ k, RaisedBy i s k ∧ t = s.raiseFault i k) ∨ ∀ f, t.status ≠ .faulted f := by
  obtain hk | ⟨x, _, hx⟩ | he := exec_status i h
  · exact .inl hk
  · exact .inr fun f => by simp [hx]
  · exact .inr fun f => by simp [he, hs]

/-- A CYCLE THAT ENDS IN FAULTED was in it already, or took one fault at the pc it began with, with a record that is true. -/
theorem cycle_faulted {f : FaultRecord} (h : cycle c = .next t) (ht : t.status = .faulted f) :
    t = c ∨ c.status = .running ∧ t = c.takeFault f.cause c.pc f.word ∧ t.RecordFits f := by
  obtain ⟨_, rfl⟩ | ⟨x, hx, rfl⟩ | ⟨_, _, rfl⟩ | ⟨hr, hp, rfl⟩ | ⟨w, hf, hd, rfl⟩ | ⟨i, hf, hd, he⟩ := cycle_next_cases h
  · exact .inl rfl
  · obtain he | he := waitPoll_cases c x
    · rw [he, State.setKlatch_status, hx] at ht
      cases ht
    · rw [he] at ht
      cases ht
  · cases ht
  · cases ht
    have hp : c.pc = 0xFFF#16 := BitVec.eq_of_toNat_eq hp
    exact .inr ⟨hr, rfl, rfl, .inl ⟨rfl, hp, hp, rfl⟩⟩
  · cases ht
    cases decode_failure_word hd
    exact .inr ⟨hf.1, rfl, rfl, rfl, hd⟩
  · obtain ⟨k, hk, rfl⟩ | hn := exec_faults_or he hf.1
    · rw [advance_raiseFault] at ht ⊢
      cases ht
      exact .inr ⟨hf.1, rfl, hk.recordFits hd⟩
    · exact absurd ht (hn f)

/-- A STEP THAT ENDS IN FAULTED began in it, or is a cycle that took the fault. -/
theorem step_faulted {f : FaultRecord} (h : step s = .next t) (ht : t.status = .faulted f) :
    s.status = .faulted f ∨
      ∃ c, s.BeginsCycle c ∧ s.status = .running ∧ t = c.takeFault f.cause c.pc f.word ∧ t.RecordFits f := by
  obtain ⟨c, hb, hc⟩ | ⟨_, _, rfl⟩ | ⟨_, _, rfl⟩ | ⟨image, _, _, _, rfl⟩ := step_next_cases h
  · obtain rfl | ⟨hr, he, hf⟩ := cycle_faulted hc ht
    · exact .inl (BeginsCycle_status hb ▸ ht)
    · exact .inr ⟨c, hb, BeginsCycle_status hb ▸ hr, he, hf⟩
  · exact .inl (by rw [← ht, tick_status, State.dropEvent_status])
  · cases ht
  · exact .inl (by rw [← ht, load_status, State.dropEvent_status])

end Sys2Proof.Machine
end

section
/-! No instruction reads the sound timer, the key latch or an input port but those that name it (10_state.md R22, R25, R27, R29):
execution commutes with any change of these three fields. -/

namespace Sys2Proof.Machine

open Sys2Proof.Claims

/-- The state with its sound timer, its key latch and the environment's side changed. -/
def State.mapPorts (a : Byte → Byte) (k : Word → Word) (e : Env → Env) (s : State) : State :=
  { s with st := a s.st, klatch := k s.klatch, env := e s.env }

variable (a : Byte → Byte) (k : Word → Word) (e : Env → Env) (s : State)

/-! ### The shared operations -/

theorem writeWithFlag_mapPorts (d : Nibble) (r f : Byte) :
    (s.mapPorts a k e).writeWithFlag d r f = (s.writeWithFlag d r f).mapPorts a k e := by
  simp only [State.writeWithFlag, show (s.mapPorts a k e).params = s.params from rfl]
  cases s.params.flagOrder <;> rfl

theorem writeIWithFlag_mapPorts (r : Word) (f : Byte) :
    (s.mapPorts a k e).writeIWithFlag r f = (s.writeIWithFlag r f).mapPorts a k e := by
  simp only [State.writeIWithFlag_eq]
  rfl

theorem setVs_mapPorts (j : Nat) (bs : List Byte) : (s.mapPorts a k e).setVs j bs = (s.setVs j bs).mapPorts a k e := by
  induction bs generalizing s j with
  | nil => rfl
  | cons b bs ih => exact ih (s.setV (BitVec.ofNat 4 j) b) (j + 1)

theorem skipIf_mapPorts (c : Bool) : (s.mapPorts a k e).skipIf c = (s.skipIf c).mapPorts a k e := by
  cases c <;> rfl

theorem guarded_mapPorts (i : Instr) (check : Option Cause) (rest : State) :
    guarded (s.mapPorts a k e) i check (rest.mapPorts a k e) = onNext (State.mapPorts a k e) (guarded s i check rest) := by
  cases check <;> rfl

/-! ### The instructions -/

/-- What the change of the ports must leave alone for an instruction that uses one. -/
def PortsAgree (i : Instr) : Prop :=
  match i with
  | .skp _ | .sknp _ => (e s.env).keys = s.env.keys
  | .rnd _ _ => (e s.env).rnd = s.env.rnd ∧ (e s.env).cycleNo = s.env.cycleNo
  | .ldVxK _ => (e s.env).keys = k s.env.keys
  | .ldStVx x => a (s.getV x) = s.getV x
  | _ => True

theorem exec_mapPorts (i : Instr) (h : PortsAgree a k e s i) :
    exec i (s.mapPorts a k e) = onNext (State.mapPorts a k e) (exec i s) := by
  cases i with
  | ret =>
    by_cases hs : 0 < s.sp.val
    · rw [exec_ret_pops s hs]
      exact exec_ret_pops (s.mapPorts a k e) hs
    · have hs : s.sp.val = 0 := by omega
      rw [exec_ret_empty s hs]
      exact exec_ret_empty (s.mapPorts a k e) hs
  | call nnn =>
    by_cases hs : s.sp.val < 16
    · rw [exec_call_room s nnn hs]
      exact exec_call_room (s.mapPorts a k e) nnn hs
    · have hs : s.sp.val = 16 := by omega
      rw [exec_call_full s nnn hs]
      exact exec_call_full (s.mapPorts a k e) nnn hs
  | seImm _ _ | sneImm _ _ | seReg _ _ | sneReg _ _ => exact congrArg Host.Outcome.next (skipIf_mapPorts a k e s _)
  | skp x | sknp x =>
    have hk : (e s.env).keys = s.env.keys := h
    refine (congrArg Host.Outcome.next (skipIf_mapPorts a k e s _)).trans ?_
    simp only [State.mapPorts, hk]
    rfl
  | rnd x nn =>
    obtain ⟨hr, hc⟩ : (e s.env).rnd = s.env.rnd ∧ (e s.env).cycleNo = s.env.cycleNo := h
    have hb : (s.mapPorts a k e).rndByte = s.rndByte := by simp only [State.rndByte, State.mapPorts, hr, hc]
    simp only [exec, execRnd, hb]
    rfl
  | ldVxK x =>
    have hk : (e s.env).keys = k s.env.keys := h
    simp only [exec, execLdVxK, State.mapPorts, hk]
    rfl
  | ldStVx x =>
    have hv : a (s.getV x) = s.getV x := h
    simp only [exec, execLdStVx, onNext, State.mapPorts, State.setSt_st, hv]
    rfl
  | addReg _ _ | sub _ _ | shr _ _ | subn _ _ | shl _ _ =>
    exact congrArg Host.Outcome.next (writeWithFlag_mapPorts a k e s _ _ _)
  | addIVx x => exact congrArg Host.Outcome.next (writeIWithFlag_mapPorts a k e s _ _)
  | drw x y n => exact guarded_mapPorts a k e s _ _ (s.draw x y n)
  | ldBVx x => exact guarded_mapPorts a k e s (.ldBVx x) (checkStore s.params s.I 3) (s.storeBytes _ (bcdDigits (s.getV x)))
  | storeRegs x => exact guarded_mapPorts a k e s _ _ (s.storeBytes _ _)
  | loadRegs x =>
    refine Eq.trans ?_ (guarded_mapPorts a k e s _ _ (s.setVs _ _))
    rw [← setVs_mapPorts]
    rfl
  | _ => rfl

end Sys2Proof.Machine
end

section
/-! What every step keeps: the invariant of legal states, and the truth of a fault record. -/

namespace Sys2Proof.Machine

open Sys2Proof.Claims

variable {s c t : State}

/-! ### The pc of an instruction that was fetched -/

theorem Fetches_advance_pc (h : c.Fetches) : (c.pc + 2).toNat = c.pc.toNat + 2 := by
  have hp := h.2
  rw [BitVec.toNat_add, show (2 : Word).toNat = 2 from rfl]
  omega

theorem Fetches_skip_pc (h : c.Fetches) : (c.pc + 2 + 2).toNat = c.pc.toNat + 4 := by
  have hp := h.2
  rw [BitVec.toNat_add, Fetches_advance_pc h, show (2 : Word).toNat = 2 from rfl]
  omega

/-- The pc after an instruction that is no jump and does not fault (R84). -/
theorem exec_pc_toNat {i : Instr} (hf : c.Fetches) (h : exec i c.advance = .next t) (hn : ∀ f, t.status ≠ .faulted f)
    (hj : ¬Jumps i) : t.pc.toNat = c.pc.toNat + 2 ∨ Skips i ∧ t.pc.toNat = c.pc.toNat + 4 := by
  obtain hp | ⟨hk, hp⟩ := exec_pc h hn hj
  · exact .inl (by rw [hp, State.advance_pc, Fetches_advance_pc hf])
  · exact .inr ⟨hk, by rw [hp, State.advance_pc, Fetches_skip_pc hf]⟩

/-! ### Legal states -/

namespace State.Inv

theorem beginsCycle (h : s.Inv) (hb : s.BeginsCycle c) : c.Inv := by
  rcases hb with ⟨_, rfl⟩ | ⟨_, _, _, _, rfl⟩ <;> exact ⟨h.memory, h.pc, h.stack, h.halted⟩

theorem takeFault (h : s.Inv) (k : Cause) (w : Option Word) : (s.takeFault k s.pc w).Inv :=
  ⟨h.memory, h.pc, h.stack, fun e => by cases e⟩

theorem waitPoll (h : s.Inv) (x : Nibble) : (s.waitPoll x).Inv := by
  unfold State.waitPoll
  split
  · exact ⟨h.memory, h.pc, h.stack, h.halted⟩
  · exact ⟨h.memory, h.pc, h.stack, fun e => by cases e⟩

protected theorem exec {i : Instr} (h : c.Inv) (hf : c.Fetches) (he : exec i c.advance = .next t) : t.Inv := by
  obtain ⟨k, _, rfl⟩ | hn := exec_faults_or he hf.1
  · rw [advance_raiseFault]
    exact h.takeFault _ _
  · have hA := Fetches_advance_pc hf
    obtain ⟨hr, hp⟩ := hf
    refine ⟨?_, ?_, fun j => ?_, fun ht => absurd ht (exec_not_halted he hr)⟩
    · rw [exec_params i he]
      exact (exec_storesInMemory he).keeps_wf h.memory
    · by_cases hj : Jumps i
      · exact exec_jump_le he hn hj h.stack
      · obtain hq | ⟨_, hq⟩ := exec_pc_toNat ⟨hr, hp⟩ he hn hj <;> omega
    · obtain hj | hj := exec_stack he j
      · exact hj ▸ h.stack j
      · rw [hj, State.advance_pc, hA]
        omega

protected theorem cycle (h : c.Inv) (hc : cycle c = .next t) : t.Inv := by
  obtain ⟨_, rfl⟩ | ⟨x, _, rfl⟩ | ⟨_, hp, rfl⟩ | ⟨_, _, rfl⟩ | ⟨w, _, _, rfl⟩ | ⟨i, hf, _, he⟩ := cycle_next_cases hc
  · exact h
  · exact h.waitPoll x
  · exact ⟨h.memory, h.pc, h.stack, fun _ => hp⟩
  · exact h.takeFault _ _
  · exact h.takeFault _ _
  · exact h.exec hf he

theorem dropEvent (h : s.Inv) : s.dropEvent.Inv := ⟨h.memory, h.pc, h.stack, h.halted⟩

theorem tick (h : s.Inv) : s.tick.Inv := by
  unfold State.tick
  split
  · exact ⟨h.memory, h.pc, h.stack, h.halted⟩
  · exact ⟨h.memory, h.pc, h.stack, h.halted⟩
  · exact h
  · exact h

theorem loadImage (h : s.Inv) {image : List Byte} (hl : image.length ≤ Config.maxImage) : (s.loadImage image).Inv := by
  refine ⟨Memory.wf_writeBytes s.params h.memory ?_, h.pc, h.stack, h.halted⟩
  simp only [Config.programBase, Config.memSize, Config.maxImage] at hl ⊢
  omega

theorem load (h : s.Inv) (image : List Byte) : (s.load image).Inv := by
  unfold State.load
  split
  · exact h.loadImage ‹_›
  · split
    · exact ⟨h.memory, h.pc, h.stack, h.halted⟩
    · exact h.loadImage (List.length_take_le _ _)

/-- A Reset makes a legal state of any state. -/
theorem resetEvent (s : State) : s.resetEvent.Inv := by
  refine ⟨Memory.wf_nil s.params, ?_, fun j => ?_, fun e => by cases e⟩
  · exact show (0x0200#16).toNat ≤ 0x10FE by decide
  · have : s.resetEvent.stack[j] = 0 := Proofs.reset_stack j
    simp [this]

end State.Inv

/-! ### Fault records -/

/-- What a record says of a state, it says of any state with the same pc, word at pc, sp, I and parameters. -/
theorem State.RecordFits.congr {f : FaultRecord} (h : s.RecordFits f) (hp : t.pc = s.pc) (hw : t.fetchWord = s.fetchWord)
    (hs : t.sp = s.sp) (hI : t.I = s.I) (hP : t.params = s.params) : t.RecordFits f := by
  obtain ⟨cause, fpc, word⟩ := f
  cases cause <;> simpa only [State.RecordFits, State.RangeFails, hp, hw, hs, hI, hP] using h

theorem State.RecordFits.beginsCycle {f : FaultRecord} (h : s.RecordFits f) (hb : s.BeginsCycle c) : c.RecordFits f := by
  rcases hb with ⟨_, rfl⟩ | ⟨_, _, _, _, rfl⟩ <;> exact h.congr rfl rfl rfl rfl rfl

theorem State.RecordFits.dropEvent {f : FaultRecord} (h : s.RecordFits f) : s.dropEvent.RecordFits f :=
  h.congr rfl rfl rfl rfl rfl

theorem State.RecordFits.tick {f : FaultRecord} (h : s.RecordFits f) : s.tick.RecordFits f := by
  unfold State.tick
  split
  · exact h.congr rfl rfl rfl rfl rfl
  · exact h.congr rfl rfl rfl rfl rfl
  · exact h
  · exact h

end Sys2Proof.Machine
end

section
/-! The statements of the state (10_state.md): its invariants, its reset, what changes each part of it, and what reads it. -/

namespace Sys2Proof.Proofs

open Sys2Proof.Machine Sys2Proof.Claims

variable {s c t : State}

/-! ### Invariants -/

/-- Settles O57: each event keeps the invariant; for an instruction by the bounds of its pc, of what it pushes and of what it
stores. -/
theorem stepKeepsTheInvariant : Obligations.StepKeepsTheInvariant := by
  intro s t hs h
  obtain ⟨c, hb, hc⟩ | ⟨_, _, rfl⟩ | ⟨_, _, rfl⟩ | ⟨image, _, _, _, rfl⟩ := step_next_cases h
  · exact (hs.beginsCycle hb).cycle hc
  · exact hs.dropEvent.tick
  · exact .resetEvent _
  · exact hs.dropEvent.load image

/-- Before the first Cycle since a Reset the status stays Running: a Tick and a Load do not write it, a Cycle ends the time. -/
theorem step_fresh (hs : s.env.started = false → s.status = .running) (h : step s = .next t)
    (ht : t.env.started = false) : t.status = .running := by
  obtain ⟨c, hb, hc⟩ | ⟨_, _, rfl⟩ | ⟨_, _, rfl⟩ | ⟨image, _, _, hf, rfl⟩ := step_next_cases h
  · rw [cycle_env hc, BeginsCycle_started hb] at ht
    cases ht
  · rw [tick_env] at ht
    rw [tick_status, State.dropEvent_status]
    exact hs ht
  · rfl
  · rw [load_status, State.dropEvent_status]
    exact hs hf

/-- A fault just taken has a true record; one that stood already stands in a state that a Cycle and a Tick leave alone, and
no Load comes to it. -/
theorem step_record (hs : s.FaultInv) (h : step s = .next t) {f : FaultRecord} (ht : t.status = .faulted f) :
    t.RecordFits f := by
  obtain ⟨c, hb, hc⟩ | ⟨_, _, rfl⟩ | ⟨_, _, rfl⟩ | ⟨image, _, _, hf, rfl⟩ := step_next_cases h
  · obtain rfl | ⟨_, _, hr⟩ := cycle_faulted hc ht
    · exact (hs.record f (BeginsCycle_status hb ▸ ht)).beginsCycle hb
    · exact hr
  · rw [tick_status, State.dropEvent_status] at ht
    exact (hs.record f ht).dropEvent.tick
  · cases ht
  · rw [load_status, State.dropEvent_status, hs.fresh hf] at ht
    cases ht

/-- Settles O58, by its two clauses: the status before the first Cycle, and the record of a fault. -/
theorem stepKeepsFaultRecordsTrue : Obligations.StepKeepsFaultRecordsTrue :=
  fun _ _ hs h => ⟨step_fresh hs.fresh h, fun _ => step_record hs h⟩

/-- Settles O56: the reset state lists no memory, stands in Running at 0x200, and its font ends at 0x0A0. -/
theorem invariantsHoldAtReset : Obligations.InvariantsHoldAtReset :=
  ⟨.resetEvent State.reset, ⟨fun _ => rfl, fun _ h => by cases h⟩, by decide⟩

/-! ### Reset -/

/-- Settles O13: a Reset's state is State.reset but for the parameters and the environment's side, and its memory lists
nothing. -/
theorem resetEventRestoresResetValues : Obligations.ResetEventRestoresResetValues := by
  intro s rest he
  refine ⟨_, step_reset he, rfl, rfl, reset_getV, rfl, rfl, reset_stack, rfl, rfl, rfl, reset_cell, rfl, rfl, rfl, rfl, ?_,
    unlisted_font s.params, unlisted_zero s.params, fun rest' hr => ?_⟩
  · simp [State.resetEvent, he]
  · subst hr
    refine ⟨_, step_reset (rest := rest') (by simp [State.resetEvent, he]), fun p hp => ?_⟩
    cases p with
    | env => exact absurd rfl hp
    | _ => rfl

/-! ### Faults and terminal statuses -/

theorem takeFault_here_frame (s : State) (k : Cause) (w : Option Word) :
    ChangesOnly [.status, .displayUpdate] s (s.takeFault k s.pc w) := by
  intro p hp
  cases p with
  | status | displayUpdate => exact absurd (by simp) hp
  | _ => rfl

/-- Settles O43: a step that enters Faulted is a cycle whose one change is the fault taken at its own pc. -/
theorem faultsArePrecise : Obligations.FaultsArePrecise := by
  intro s t f h hn ht
  obtain hf | ⟨c, hb, hr, rfl, ⟨hfpc, _⟩⟩ := step_faulted h ht
  · exact absurd hf (hn f)
  · exact ⟨⟨c, hb⟩, hr, hfpc.trans (BeginsCycle_pc (c := c) hb), rfl,
      ((BeginsCycle_frame hb).mono (by simp)).trans ((takeFault_here_frame c _ _).mono (by simp))⟩

/-- Settles O44: a cycle in a terminal status ends at once, and neither a Tick nor a Load writes the status. -/
theorem terminalStatusIsLeftOnlyByReset : Obligations.TerminalStatusIsLeftOnlyByReset := by
  intro s t hs hr h
  obtain ⟨c, hb, hc⟩ | ⟨_, _, rfl⟩ | ⟨rest, he, _⟩ | ⟨image, _, _, _, rfl⟩ := step_next_cases h
  · rw [cycle_terminal (BeginsCycle_status hb ▸ hs)] at hc
    rw [← Host.Outcome.next.inj hc, BeginsCycle_status hb]
  · rw [tick_status, State.dropEvent_status]
  · exact absurd ⟨rest, he⟩ hr
  · rw [load_status, State.dropEvent_status]

/-! ### What changes each part of the state -/

theorem executes_mono {P Q : Instr → Prop} (h : Executes s P) (hPQ : ∀ i, P i → Q i) : Executes s Q := by
  obtain ⟨hc, hf, i, hd, hP⟩ := h
  exact ⟨hc, hf, i, hd, hPQ i hP⟩

/-- A piece that no Load and no part of a cycle but its instruction may change. -/
theorem changed_by_tick_or_instruction {p : Piece} (h : step s = .next t) (hp : ¬p.Same s t)
    (hl : ¬(p = .env ∨ p = .loadResult ∨ ∃ a, p = .byte a)) (hc : ¬CycleMayChange s p) :
    ((∃ rest, s.env.events = .tick :: rest) ∧ p ∈ [.dt, .st, .env]) ∨ Resets s ∨ Executes s (MayChange · s p) := by
  obtain hr | hk | ⟨_, hk⟩ | ⟨_, hk⟩ | he := step_change_cases h p hp
  · exact .inr (.inl hr)
  · exact .inl hk
  · exact absurd hk hl
  · exact absurd hk hc
  · exact .inr (.inr he)

/-- The same of a piece that no Tick may change either. -/
theorem changed_by_instruction {p : Piece} (h : step s = .next t) (hp : ¬p.Same s t) (ht : p ∉ [.dt, .st, .env])
    (hl : ¬(p = .env ∨ p = .loadResult ∨ ∃ a, p = .byte a)) (hc : ¬CycleMayChange s p) :
    Resets s ∨ Executes s (MayChange · s p) :=
  (changed_by_tick_or_instruction h hp hl hc).resolve_left fun hk => ht hk.2

/-- Settles O45: the instructions whose frame names a cell are CLS and DRW. -/
theorem screenChangesOnlyByClsDrwOrReset : Obligations.ScreenChangesOnlyByClsDrwOrReset := by
  intro s t y x h hne
  refine (changed_by_instruction (p := .cell y x) h hne (by simp) (by simp) (by simp [CycleMayChange])).imp_right fun he =>
    executes_mono he fun i hi => ?_
  cases i with
  | cls | drw _ _ _ => trivial
  | _ => simp [MayChange] at hi

/-- Settles O46: the instruction whose frame names DT is FX15, and ST is FX18; a Tick counts both down. -/
theorem timersChangeOnlyByTickOrSet : Obligations.TimersChangeOnlyByTickOrSet := by
  intro s t h
  refine ⟨fun hne => ?_, fun hne => ?_⟩
  · refine (changed_by_tick_or_instruction (p := .dt) h hne (by simp) (by simp [CycleMayChange])).imp And.left
      (Or.imp_right fun he => executes_mono he fun i hi => ?_)
    cases i with
    | ldDtVx x => exact ⟨x, rfl⟩
    | _ => simp [MayChange] at hi
  · refine (changed_by_tick_or_instruction (p := .st) h hne (by simp) (by simp [CycleMayChange])).imp And.left
      (Or.imp_right fun he => executes_mono he fun i hi => ?_)
    cases i with
    | ldStVx x => exact ⟨x, rfl⟩
    | _ => simp [MayChange] at hi

/-- Settles O48: the frames of CALL and RET name sp, that of CALL alone a stack entry. -/
theorem stackChangesOnlyByCallOrRet : Obligations.StackChangesOnlyByCallOrRet := by
  intro s t h
  refine ⟨fun hne => ?_, fun j hne => ?_⟩
  · refine (changed_by_instruction (p := .sp) h hne (by simp) (by simp) (by simp [CycleMayChange])).imp_right fun he =>
      executes_mono he fun i hi => ?_
    cases i with
    | ret => exact .inl rfl
    | call nnn => exact .inr ⟨nnn, rfl⟩
    | _ => simp [MayChange] at hi
  · refine (changed_by_instruction (p := .stackEntry j) h hne (by simp) (by simp)
      (by simp [CycleMayChange])).imp_right fun he => executes_mono he fun i hi => ?_
    cases i with
    | call nnn => exact ⟨nnn, rfl⟩
    | _ => simp [MayChange] at hi

/-- The instructions whose frame names a register are those R13 and R14 name. -/
theorem writes_of_mayChange_v {i : Instr} {r : Nibble} (h : MayChange i s (.v r)) : Writes i r := by
  cases i with
  | loadRegs x =>
    obtain hk | ⟨y, hy, hr⟩ := h
    · simp at hk
    · cases hr
      exact hy
  | ldImm _ _ | addImm _ _ | ldReg _ _ | or _ _ | and _ _ | xor _ _ | rnd _ _ => exact Piece.v.inj h
  | ldVxDt _ => exact Piece.v.inj h
  | addReg _ _ | sub _ _ | shr _ _ | subn _ _ | shl _ _ => exact h.imp Piece.v.inj Piece.v.inj
  | addIVx _ | drw _ _ _ => simpa [MayChange, Writes] using h
  | _ => simp [MayChange] at h

/-- A cycle of a key wait that changes a register ended the wait. -/
theorem wait_ends_of_getV_ne {r : Nibble} (hb : s.BeginsCycle c) (hs : s.status = .awaitingKey r)
    (h : cycle c = .next t) (hne : t.getV r ≠ s.getV r) : t.status = .running := by
  rw [cycle_awaiting (BeginsCycle_status hb ▸ hs)] at h
  cases Host.Outcome.next.inj h
  obtain he | he := waitPoll_cases c r
  · rw [he, State.setKlatch_getV] at hne
    exact absurd (BeginsCycle_frame hb (.v r) (by simp)) hne
  · exact he

/-- Settles O49: a changed register is named by the frame of the instruction executed, or was the one a key wait was for. -/
theorem registersChangeOnlyByTheirWriters : Obligations.RegistersChangeOnlyByTheirWriters := by
  intro s t r h
  refine ⟨fun hne => ?_, fun hne => ?_⟩
  · obtain hr | ⟨_, hk⟩ | ⟨_, hk⟩ | ⟨⟨c, hb, hc⟩, hk⟩ | he := step_change_cases h (.v r) hne
    · exact .inl hr
    · simp at hk
    · simp at hk
    · have hs : s.status = .awaitingKey r := by simpa [CycleMayChange] using hk
      exact .inr (.inl ⟨⟨c, hb⟩, hs, wait_ends_of_getV_ne hb hs hc hne⟩)
    · exact .inr (.inr (executes_mono he fun i => writes_of_mayChange_v))
  · refine (changed_by_instruction (p := .I) h hne (by simp) (by simp) (by simp [CycleMayChange])).imp_right fun he =>
      executes_mono he fun i hi => ?_
    cases i with
    | ldI nnn => exact .inl ⟨nnn, rfl⟩
    | addIVx x => exact .inr (.inl ⟨x, rfl⟩)
    | ldFVx x => exact .inr (.inr ⟨x, rfl⟩)
    | _ => simp [MayChange] at hi

/-! ### The pc and the output display_update after a cycle -/

/-- Settles O50: a fault is taken at the pc of the cycle, and any other instruction but a jump leaves the advanced pc or skips. -/
theorem pcAfterACycleThatExecutes : Obligations.PcAfterACycleThatExecutes := by
  intro s c t i hb hf hd h
  have hf' : c.Fetches := (BeginsCycle_fetches hb).2 hf
  rw [step_cycle hb, cycle_executes hf' (BeginsCycle_fetchWord hb ▸ hd)] at h
  rw [← BeginsCycle_pc hb]
  refine ⟨fun ⟨f, ht⟩ => ?_, fun hn hj => exec_pc_toNat hf' h hn hj⟩
  obtain ⟨k, _, rfl⟩ | hn := exec_faults_or h hf'.1
  · rw [advance_raiseFault, State.takeFault_pc]
  · exact absurd ht (hn f)

/-- Settles O51: the start of the cycle clears the output, 00E0 and DXYN set it where they do not fault. -/
theorem displayUpdateExactlyAfterADraw : Obligations.DisplayUpdateExactlyAfterADraw := by
  intro s c t hb h
  rw [step_cycle hb] at h
  have hc := BeginsCycle_displayUpdate hb
  constructor
  · intro ht
    obtain ⟨_, rfl⟩ | ⟨x, _, rfl⟩ | ⟨_, _, rfl⟩ | ⟨_, _, rfl⟩ | ⟨w, _, _, rfl⟩ | ⟨i, hf, hd, he⟩ := cycle_next_cases h
    · simp [hc] at ht
    · have := waitPoll_frame c x .displayUpdate (by simp)
      rw [show (c.waitPoll x).displayUpdate = c.displayUpdate from this, hc] at ht
      cases ht
    · simp [hc] at ht
    · cases ht
    · cases ht
    · obtain ⟨k, _, rfl⟩ | hn := exec_faults_or he hf.1
      · cases ht
      · exact ⟨executes_of_cycle hb hf hd ((exec_displayUpdate he hn hc).1 ht), hn⟩
  · rintro ⟨⟨_, hf, i, hd, hi⟩, hn⟩
    have hf' : c.Fetches := (BeginsCycle_fetches hb).2 hf
    rw [cycle_executes hf' (BeginsCycle_fetchWord hb ▸ hd)] at h
    exact (exec_displayUpdate h hn hc).2 hi

/-! ### What an instruction reads -/

/-- Settles O54: execution commutes with a change of the keys for every instruction that does not use them. -/
theorem onlyKeyInstructionsReadTheKeys : Obligations.OnlyKeyInstructionsReadTheKeys := by
  intro i s keys hi
  refine exec_mapPorts id id (fun e => { e with keys := keys }) s i ?_
  cases i with
  | skp x => exact absurd rfl (hi x).1
  | sknp x => exact absurd rfl (hi x).2.1
  | ldVxK x => exact absurd rfl (hi x).2.2
  | rnd _ _ => exact ⟨rfl, rfl⟩
  | ldStVx _ => rfl
  | _ => trivial

theorem exec_setSt (i : Instr) (s : State) (b : Byte) (hi : ∀ x, i ≠ .ldStVx x) :
    exec i (s.setSt b) = onNext (fun t => t.setSt b) (exec i s) := by
  refine exec_mapPorts (fun _ => b) id id s i ?_
  cases i with
  | ldStVx x => exact absurd rfl (hi x)
  | rnd _ _ => exact ⟨rfl, rfl⟩
  | skp _ | sknp _ | ldVxK _ => rfl
  | _ => trivial

theorem exec_setKlatch (i : Instr) (s : State) (w : Word) (hi : ∀ x, i ≠ .ldVxK x) :
    exec i (s.setKlatch w) = onNext (fun t => t.setKlatch w) (exec i s) := by
  refine exec_mapPorts id (fun _ => w) id s i ?_
  cases i with
  | ldVxK x => exact absurd rfl (hi x)
  | rnd _ _ => exact ⟨rfl, rfl⟩
  | skp _ | sknp _ | ldStVx _ => rfl
  | _ => trivial

/-- Settles O55: execution commutes with a change of ST and of the latch; FX18 and FX0A overwrite theirs. -/
theorem noInstructionReadsTheSoundTimerOrTheLatch : Obligations.NoInstructionReadsTheSoundTimerOrTheLatch :=
  fun i s b w => ⟨exec_setSt i s b, fun ⟨_, hi⟩ => hi ▸ rfl, exec_setKlatch i s w, fun ⟨_, hi⟩ => hi ▸ rfl⟩

/-! ### The call stack (10_state.md R20) -/

/-- An instruction that answers with a fault raised meets the shape in which the statements speak of faults. -/
theorem faults_of_raiseFault {i : Instr} {k : Cause} (h : exec i s = .next (s.raiseFault i k)) : Faults i s k :=
  ⟨_, h, rfl, rfl, rfl, raiseFault_frame s i k⟩

/-- Settles O20: CALL with room writes the entry at sp, sp and the pc; a full stack raises the fault. -/
theorem callPushesAndJumps : Obligations.CallPushesAndJumps := by
  intro s nnn
  refine ⟨fun hs => ?_, fun hs => faults_of_raiseFault (exec_call_full s nnn hs)⟩
  refine ⟨_, exec_call_room s nnn hs, zext16_toNat nnn, rfl, by simp [State.afterCall], fun p hp => ?_⟩
  cases p with
  | stackEntry j => exact push_frame s hs (s.push_eq s.pc hs) (.stackEntry j) (by simpa using hp)
  | pc | sp => exact absurd (by simp) hp
  | _ => rfl

/-- Settles O21: RET with an entry in use writes sp and the pc; an empty stack raises the fault. -/
theorem retPopsAndReturns : Obligations.RetPopsAndReturns := by
  intro s
  refine ⟨fun hs => ?_, fun hs => faults_of_raiseFault (exec_ret_empty s hs)⟩
  refine ⟨_, exec_ret_pops s hs, rfl, rfl, fun p hp => ?_⟩
  cases p with
  | pc | sp => exact absurd (by simp) hp
  | _ => rfl

end Sys2Proof.Proofs
end

section
/-! Memory read back: a canonical list is determined by its bytes, bytes stored and registers loaded are those given, and the word
placed at pc is the word fetched (20_memory.md R43, R49, R53). -/

namespace Sys2Proof.Machine

namespace Memory

variable {p : Params} {m m' : List Host.Cell} {c : Host.Cell}

/-- With rising addresses each entry is the one that its address reads. -/
theorem read_of_mem (hm : m.Pairwise fun c d => c.1 < d.1) (hc : c ∈ m) : read p m c.1 = c.2 := by
  induction m with
  | nil => cases hc
  | cons d m ih =>
    obtain ⟨hd, hm⟩ := List.pairwise_cons.1 hm
    rw [read_cons]
    obtain rfl | hc := List.mem_cons.1 hc
    · exact if_pos rfl
    · rw [if_neg (hd c hc).ne, ih hm hc]

/-- A byte other than the reset contents is listed. -/
theorem mem_of_read_ne {a : Nat} (h : read p m a ≠ unlisted p a) : (a, read p m a) ∈ m := by
  induction m with
  | nil => exact absurd rfl h
  | cons d m ih =>
    rw [read_cons] at h ⊢
    split at h
    · rename_i hd
      rw [if_pos hd, ← hd]
      exact List.mem_cons_self
    · rename_i hd
      rw [if_neg hd]
      exact List.mem_cons_of_mem _ (ih h)

/-- The entries of a canonical list are the bytes that differ from the reset contents (log 20). -/
theorem mem_iff_read (hm : wf p m) : c ∈ m ↔ read p m c.1 = c.2 ∧ c.2 ≠ unlisted p c.1 := by
  obtain ⟨hrise, hdiffer⟩ := hm
  refine ⟨fun hc => ⟨read_of_mem hrise hc, (hdiffer c hc).2⟩, fun ⟨hr, hn⟩ => ?_⟩
  rw [← hr] at hn
  have hc := mem_of_read_ne hn
  rwa [hr] at hc

end Memory

namespace State

variable (s : State)

/-! ### Bytes stored, registers loaded -/

theorem storeBytes_readByte_getElem (a : Nat) (bs : List Byte) {j : Nat} (hj : j < bs.length) :
    (s.storeBytes a bs).readByte (a + j) = bs[j] := by
  simp [storeBytes_readByte, hj]

/-- Storing V[0..x] at a puts each of them at its place from a on (R111). -/
theorem storeBytes_firstVs_readByte (a : Nat) {x y : Nibble} (h : y.toNat ≤ x.toNat) :
    (s.storeBytes a (s.firstVs (x.toNat + 1))).readByte (a + y.toNat) = s.getV y := by
  rw [storeBytes_readByte_getElem _ _ _ (by simpa using Nat.lt_succ_of_le h), getElem_firstVs, BitVec.ofNat_toNat,
    BitVec.setWidth_eq]

/-- Loading V[0..x] from a gives each of them the byte at its place from a on (R112). -/
theorem setVs_readBytes_getV (a : Nat) {x y : Nibble} (h : y.toNat ≤ x.toNat) :
    (s.setVs 0 (s.readBytes a (x.toNat + 1))).getV y = s.readByte (a + y.toNat) := by
  have hl : y.toNat < (s.readBytes a (x.toNat + 1)).length := by simpa using Nat.lt_succ_of_le h
  rw [setVs_getV _ _ _ (by simp; omega), if_pos (Nat.zero_le _), Nat.sub_zero, List.getElem?_eq_getElem hl,
    getElem_readBytes, Option.getD_some]

theorem setVs_readByte (k : Nat) (bs : List Byte) (a : Nat) : (s.setVs k bs).readByte a = s.readByte a := by
  rw [setVs_eq]
  rfl

/-! ### A word placed at pc -/

theorem storeBytes_fetchWord (w : Word) : (s.storeBytes s.pc.toNat [highByte w, lowByte w]).fetchWord = w := by
  have hi := s.storeBytes_readByte_getElem s.pc.toNat [highByte w, lowByte w] (j := 0) (by simp)
  have lo := s.storeBytes_readByte_getElem s.pc.toNat [highByte w, lowByte w] (j := 1) (by simp)
  rw [Nat.add_zero] at hi
  rw [fetchWord, storeBytes_pc, hi, lo]
  exact wordOfBytes_split w

theorem placeWord_fetchWord (w : Word) : (s.placeWord w).fetchWord = w := storeBytes_fetchWord _ w

theorem placeWord_fetches (w : Word) : (s.placeWord w).Fetches := by
  refine ⟨rfl, ?_⟩
  simp only [placeWord, storeBytes_pc]
  split
  · assumption
  · decide

/-- The event before the placed word is a Cycle: the queued one, or the one that an empty queue means (logs 4, 9). -/
theorem placeWord_beginsCycle (w : Word) : ∃ c, (s.placeWord w).BeginsCycle c := by
  have he : (s.placeWord w).env.events = [] ∨
      ∃ keys rnd rest, (s.placeWord w).env.events = .cycle keys rnd :: rest := by
    simp only [placeWord, storeBytes_env]
    split
    · exact .inr ⟨_, _, _, rfl⟩
    · exact .inl rfl
  obtain he | ⟨keys, rnd, rest, he⟩ := he
  · exact ⟨_, .inl ⟨he, rfl⟩⟩
  · exact ⟨_, .inr ⟨keys, rnd, rest, he, rfl⟩⟩

end State

/-! ### The instructions that load and store (43_index_memory.md R110 to R112) -/

section
variable {s : State} {x : Nibble}

theorem checkStore_passes {len : Nat} (hI : s.I.toNat + len ≤ 0x1000)
    (hl : s.params.lowMemoryWrites = .allow ∨ 0x200 ≤ s.I.toNat) : checkStore s.params s.I len = none :=
  (checkStore_eq_none _ _ _).2 ⟨.inr hI, hl.imp_right .inr⟩

theorem exec_ldBVx_stores (hI : s.I.toNat + 2 ≤ 0xFFF) (hl : s.params.lowMemoryWrites = .allow ∨ 0x200 ≤ s.I.toNat) :
    exec (.ldBVx x) s = .next (s.storeBytes s.I.toNat (bcdDigits (s.getV x))) :=
  guarded_none s _ _ (checkStore_passes (by omega) hl)

theorem exec_storeRegs_stores (hI : s.I.toNat + x.toNat ≤ 0xFFF)
    (hl : s.params.lowMemoryWrites = .allow ∨ 0x200 ≤ s.I.toNat) :
    exec (.storeRegs x) s = .next (s.storeBytes s.I.toNat (s.firstVs (x.toNat + 1))) :=
  guarded_none s _ _ (checkStore_passes (by omega) hl)

theorem exec_loadRegs_loads (hI : s.I.toNat + x.toNat ≤ 0xFFF) :
    exec (.loadRegs x) s = .next (s.setVs 0 (s.readBytes s.I.toNat (x.toNat + 1))) :=
  guarded_none s _ _ ((checkRange_eq_none _ _).2 (.inr (by omega)))
end

/-! ### Which instruction a step runs -/

/-- A step whose event is a Cycle executes what the word at pc decodes to (40_cycle.md R76 to R80). -/
theorem step_executes {s c : State} {i : Instr} (hb : s.BeginsCycle c) (hf : s.Fetches) (hd : decode s.fetchWord = .op i) :
    step s = exec i c.advance := by
  rw [step_cycle hb, cycle_executes ((BeginsCycle_fetches hb).2 hf) (BeginsCycle_fetchWord hb ▸ hd)]

theorem decode_tableWord {n w : Nat} {i : Instr} (h : decodeTableWord n w = some i) : decode (tableWord n w) = .op i := by
  rw [decodeTableWord, wordOfBytes_split] at h
  split at h
  · rename_i hd
    rw [hd, Option.some.inj h]
  · cases h

end Sys2Proof.Machine
end

section
/-! The statements of memory (20_memory.md): fetch, the stores and loads at I, what changes a byte, and the canonical form. -/

namespace Sys2Proof.Proofs

open Sys2Proof.Machine Sys2Proof.Claims

/-! ### Stores and loads at I (43_index_memory.md R110 to R112) -/

/-- Settles O33: where the check passes the store of V[0..X] is all that happens; otherwise it raises its one fault. -/
theorem storeRegistersAtI : Obligations.StoreRegistersAtI := by
  intro s x
  refine ⟨fun hI hl => ⟨_, exec_storeRegs_stores hI hl, fun y => s.storeBytes_firstVs_readByte _, ?_⟩, fun h => ?_⟩
  · refine (storeBytes_frame s _ _).mono ?_
    rintro p ⟨j, hj, rfl⟩
    rw [State.length_firstVs] at hj
    have hx := x.isLt
    have hy : (BitVec.ofNat 4 j).toNat = j := nibble_ofNat_toNat (by omega)
    exact ⟨BitVec.ofNat 4 j, by omega, by rw [hy]⟩
  · exact faults_of_raiseFault (guarded_some s _ _ (checkStore_raises (by omega) (h.imp_left fun h => by omega)))

/-- Settles O34: where the check passes the load into V[0..X] is all that happens; otherwise it raises its one fault. -/
theorem loadRegistersFromI : Obligations.LoadRegistersFromI := by
  intro s x
  have hx := x.isLt
  refine ⟨fun hI => ⟨_, exec_loadRegs_loads hI, fun y => s.setVs_readBytes_getV _, ?_⟩, fun h => ?_⟩
  · refine (setVs_frame s 0 _ (by simp; omega)).mono ?_
    rintro p ⟨y, _, hy, rfl⟩
    rw [State.length_readBytes] at hy
    exact ⟨y, by omega, rfl⟩
  · exact faults_of_raiseFault (guarded_some s _ _ ((checkRange_eq_some _ _ _).2 ⟨rfl, by omega, by omega⟩))

/-- Settles O35: the load reads the bytes that the store left, and neither I nor memory depends on V. -/
theorem loadAfterStoreGivesTheRegistersBack : Obligations.LoadAfterStoreGivesTheRegistersBack := by
  intro s x v' hI hl
  refine ⟨_, _, exec_storeRegs_stores hI hl, exec_loadRegs_loads hI, fun y hy => ?_, fun a => ?_⟩
  · rw [State.setVs_readBytes_getV _ _ hy]
    exact s.storeBytes_firstVs_readByte _ hy
  · rw [State.setVs_readByte]
    rfl

/-- Settles O32: the stored bytes are R110's digits, division of bytes being that of their numbers; a check that
fails raises its one fault. -/
theorem bcdStoresThreeDigitsAtI : Obligations.BcdStoresThreeDigitsAtI := by
  intro s x
  have hdigit (j : Nat) (hj : j < 3) :=
    congrArg BitVec.toNat (s.storeBytes_readByte_getElem s.I.toNat (bcdDigits (s.getV x)) hj)
  refine ⟨fun hI hl => ⟨_, exec_ldBVx_stores hI hl, ?_, ?_, ?_, ?_⟩, fun h => ?_⟩
  · exact (hdigit 0 (by decide)).trans BitVec.toNat_udiv
  · exact (hdigit 1 (by decide)).trans BitVec.toNat_umod
  · exact (hdigit 2 (by decide)).trans BitVec.toNat_umod
  · refine (storeBytes_frame s _ _).mono ?_
    rintro p ⟨j, hj, rfl⟩
    rw [show (bcdDigits (s.getV x)).length = 3 from rfl] at hj
    interval_cases j <;> simp
  · exact faults_of_raiseFault (guarded_some s _ _ (checkStore_raises (by omega) (h.imp_left fun h => by omega)))

/-! ### What changes a byte -/

/-- Settles O47: the instructions whose frame names a byte are FX33 and FX55, each with its own range; a Tick and a cycle's own
checks name none. -/
theorem memoryChangesOnlyByStoresLoadOrReset : Obligations.MemoryChangesOnlyByStoresLoadOrReset := by
  intro s t a h hne
  obtain hr | ⟨_, hk⟩ | ⟨hl, _⟩ | ⟨_, hk⟩ | he := step_change_cases h (.byte a) hne
  · exact .inl hr
  · simp at hk
  · exact .inr (.inl hl)
  · simp [CycleMayChange] at hk
  · refine .inr (.inr (executes_mono he fun i hi => ?_))
    cases i with
    | ldBVx x =>
      obtain hi | ⟨j, hj, hi⟩ := hi
      · simp at hi
      · cases hi
        exact .inl ⟨x, rfl, by omega, by omega⟩
    | storeRegs x =>
      obtain hi | ⟨j, hj, hi⟩ := hi
      · simp at hi
      · cases hi
        exact .inr ⟨x, rfl, by omega, by omega⟩
    | _ => simp [MayChange] at hi

/-! ### The canonical form -/

/-- Settles O59: both lists hold the entries that their common bytes name, in rising order. -/
theorem canonicalMemoriesWithEqualBytesAreEqual : Obligations.CanonicalMemoriesWithEqualBytesAreEqual := by
  intro p m m' hm hm' h
  have hmem (c : Host.Cell) : c ∈ m ↔ c ∈ m' := by rw [Memory.mem_iff_read hm, Memory.mem_iff_read hm', h]
  have hperm : m.Perm m' :=
    (List.perm_ext_iff_of_nodup (hm.1.imp fun hlt e => hlt.ne (congrArg Prod.fst e))
      (hm'.1.imp fun hlt e => hlt.ne (congrArg Prod.fst e))).2 hmem
  exact hperm.eq_of_pairwise (fun _ _ _ _ hcd hdc => absurd hcd hdc.asymm) hm.1 hm'.1

/-! ### Fetch (40_cycle.md R75 to R80) -/

/-- Settles O6: the sampling of the inputs and the advance leave the word at pc, which the step then executes. -/
theorem stepRunsTheDecodedInstruction : Obligations.StepRunsTheDecodedInstruction := by
  intro s c i hb hf hd _
  have hw : s.fetchWord.toNat = 0x100 * (s.readByte s.pc.toNat).toNat + (s.readByte (s.pc.toNat + 1)).toNat := by
    rw [State.fetchWord, wordOfBytes_toNat, Nat.mul_comm]
  have hpc : c.advance.pc.toNat = s.pc.toNat + 2 := by
    rw [State.advance_pc, BeginsCycle_pc hb, Fetches_advance_pc hf]
  have hframe : ChangesOnly [.pc, .displayUpdate, .env] s c.advance :=
    ((BeginsCycle_frame hb).mono (by simp)).trans ((advance_frame c).mono (by simp))
  have hdu : c.advance.displayUpdate = false := by rw [State.advance_displayUpdate, BeginsCycle_displayUpdate hb]
  have hstarted : c.advance.env.started = true := by rw [State.advance_env, BeginsCycle_started hb]
  refine ⟨step_executes hb hf hd, hw, hpc, hdu, hstarted, ?_, ?_, ?_, hframe⟩
  · rcases hb with ⟨_, rfl⟩ | ⟨_, _, _, _, rfl⟩ <;> rfl
  · intro he
    obtain ⟨_, rfl⟩ | ⟨_, _, _, he', _⟩ := hb
    · exact ⟨rfl, rfl, he⟩
    · simp [he] at he'
  · intro keys rnd rest he
    obtain ⟨he', _⟩ | ⟨_, _, _, he', rfl⟩ := hb
    · simp [he] at he'
    · cases he.symm.trans he'
      exact ⟨rfl, rfl, by simp [he]⟩

/-- Settles O8: at 0xFFF the fetch bound raises its fault, above it the halt check comes first. -/
theorem noWordAtPcFaultsOrHalts : Obligations.NoWordAtPcFaultsOrHalts := by
  intro s c hb hr hp
  rw [← BeginsCycle_status hb] at hr
  simp only [← BeginsCycle_pc hb] at hp ⊢
  have hstart : ChangesOnly [.status, .displayUpdate, .env] s c := (BeginsCycle_frame hb).mono (by simp)
  rw [step_cycle hb]
  obtain hp | hp := hp.eq_or_lt
  · have hpc : c.pc = 0xFFF#16 := BitVec.eq_of_toNat_eq hp.symm
    refine ⟨_, cycle_fetch_faults hr hp.symm, fun _ => ?_, fun h => by omega, rfl, rfl,
      hstart.trans ((takeFault_here_frame c _ _).mono (by simp))⟩
    rw [State.result, State.takeFault_status, hpc]
    exact ⟨rfl, rfl⟩
  · have hdu : (c.setStatus .halted).displayUpdate = false := by
      rw [State.setStatus_displayUpdate, BeginsCycle_displayUpdate hb]
    exact ⟨_, cycle_halts hr hp, fun h => by omega, fun _ => ⟨rfl, rfl⟩, hdu, rfl,
      hstart.trans ((setStatus_frame c _).mono (by simp))⟩

/-- Settles O60: the placed word is fetched by a Cycle, and placing it writes no register. -/
theorem placedWordRunsNext : Obligations.PlacedWordRunsNext := by
  intro s w i h
  obtain ⟨c, hb⟩ := s.placeWord_beginsCycle (tableWord 16 w)
  have hd : decode (s.placeWord (tableWord 16 w)).fetchWord = .op i := by
    rw [State.placeWord_fetchWord, decode_tableWord h]
  exact ⟨c, hb, step_executes hb (s.placeWord_fetches _) hd, fun x => BeginsCycle_frame hb (.v x) (by simp)⟩

end Sys2Proof.Proofs
end

section
/-! The decoder after the encoder, and the words that name no instruction (30_encoding.md R59 to R67): a word decodes to an
instruction exactly where it is that instruction's encoding, and fails exactly where it is reserved. -/

namespace Sys2Proof

open Sys2Proof.Claims

variable {w : Word} {i : Instr}

/-! ### The encoder undone by the decoder -/

/-- Each family's row reads back the fields its word was assembled from. -/
theorem decode_encode (i : Instr) : decode (encode i) = .op i := by
  cases i with
  | cls | ret => rfl
  | jp _ | call _ | ldI _ | jpV0 _ => simp [encode, decode]
  | seImm _ _ | sneImm _ _ | ldImm _ _ | addImm _ _ | rnd _ _ => simp [encode, decode]
  | drw _ _ _ => simp [encode, decode]
  | seReg _ _ => simp [encode, decode, decodeFamily5]
  | sneReg _ _ => simp [encode, decode, decodeFamily9]
  | ldReg _ _ | or _ _ | and _ _ | xor _ _ | addReg _ _ | sub _ _ | shr _ _ | subn _ _ | shl _ _ =>
    simp [encode, decode, decodeFamily8]
  | skp _ | sknp _ => simp [encode, decode, decodeFamilyE]
  | ldVxDt _ | ldVxK _ | ldDtVx _ | ldStVx _ | addIVx _ | ldFVx _ | ldBVx _ | storeRegs _ | loadRegs _ =>
    simp [encode, decode, decodeFamilyF]

theorem decode_of_encode (h : encode i = w) : decode w = .op i := h ▸ decode_encode i

/-! ### Words by arithmetic on their value (R57) -/

theorem family_eq_fieldOp (w : Word) : family w = (fieldOp w).toNat := by
  rw [fieldOp_toNat, family]
  omega

theorem ofNat_family (w : Word) : BitVec.ofNat 4 (family w) = fieldOp w := by
  rw [family_eq_fieldOp, BitVec.ofNat_toNat, BitVec.setWidth_eq]

theorem X_eq_fieldX (w : Word) : X w = fieldX w := by
  apply BitVec.eq_of_toNat_eq
  rw [fieldX_toNat, X, BitVec.toNat_ofNat]

theorem Y_eq_fieldY (w : Word) : Y w = fieldY w := by
  apply BitVec.eq_of_toNat_eq
  rw [fieldY_toNat, Y, BitVec.toNat_ofNat]

theorem N_eq_fieldN (w : Word) : N w = fieldN w := by
  apply BitVec.eq_of_toNat_eq
  rw [fieldN_toNat, N, BitVec.toNat_ofNat]

theorem ofNat_low4 (w : Word) : BitVec.ofNat 4 (w.toNat % 0x10) = fieldN w := by
  rw [← fieldN_toNat, BitVec.ofNat_toNat, BitVec.setWidth_eq]

theorem NN_eq_fieldNN (w : Word) : NN w = fieldNN w := by
  apply BitVec.eq_of_toNat_eq
  rw [fieldNN_toNat, NN, BitVec.toNat_ofNat]

theorem ofNat_low8 (w : Word) : BitVec.ofNat 8 (w.toNat % 0x100) = fieldNN w := by
  rw [← fieldNN_toNat, BitVec.ofNat_toNat, BitVec.setWidth_eq]

theorem NNN_eq_fieldNNN (w : Word) : NNN w = fieldNNN w := by
  apply BitVec.eq_of_toNat_eq
  rw [fieldNNN_toNat, NNN, BitVec.toNat_ofNat]

/-! ### The rows of the family tables (R62 to R66)

A word of the family `k` whose selecting part, where the row has one, is `u` decodes to the instruction whose encoding is put
together from them and from the operands of the word. -/

theorem decode_rowNNN {k : Nat} (he : encode i = wordNNN (BitVec.ofNat 4 k) (NNN w)) (h : family w = k) :
    decode w = .op i := by
  rw [← h, ofNat_family, NNN_eq_fieldNNN, wordNNN_fields] at he
  exact decode_of_encode he

theorem decode_rowXNN {k : Nat} (he : encode i = wordNN (BitVec.ofNat 4 k) (X w) (NN w)) (h : family w = k) :
    decode w = .op i := by
  rw [← h, ofNat_family, X_eq_fieldX, NN_eq_fieldNN, wordNN_fields] at he
  exact decode_of_encode he

theorem decode_rowXYN {k : Nat} (he : encode i = word4 (BitVec.ofNat 4 k) (X w) (Y w) (N w)) (h : family w = k) :
    decode w = .op i := by
  rw [← h, ofNat_family, X_eq_fieldX, Y_eq_fieldY, N_eq_fieldN, word4_fields] at he
  exact decode_of_encode he

theorem decode_rowXY {k u : Nat} (he : encode i = word4 (BitVec.ofNat 4 k) (X w) (Y w) (BitVec.ofNat 4 u))
    (h : family w = k) (hu : w.toNat % 0x10 = u) : decode w = .op i := by
  rw [← h, ← hu, ofNat_family, X_eq_fieldX, Y_eq_fieldY, ofNat_low4, word4_fields] at he
  exact decode_of_encode he

theorem decode_rowX {k u : Nat} (he : encode i = wordNN (BitVec.ofNat 4 k) (X w) (BitVec.ofNat 8 u))
    (h : family w = k) (hu : w.toNat % 0x100 = u) : decode w = .op i := by
  rw [← h, ← hu, ofNat_family, X_eq_fieldX, ofNat_low8, wordNN_fields] at he
  exact decode_of_encode he

/-! ### The reserved words (R67) -/

/-- No instruction is encoded by a reserved word. -/
theorem not_reserved_encode (i : Instr) : ¬Reserved (encode i).toNat := by
  cases i with
  | cls | ret => decide
  | jp _ | call _ | ldI _ | jpV0 _ =>
    simp only [Reserved, encode, wordNNN_toNat, List.mem_cons, List.not_mem_nil, or_false, BitVec.toNat_ofNat]
    omega
  | seReg _ _ | sneReg _ _ | drw _ _ _ | ldReg _ _ | or _ _ | and _ _ | xor _ _ | addReg _ _ | sub _ _ | shr _ _
  | subn _ _ | shl _ _ =>
    simp only [Reserved, encode, word4_toNat, List.mem_cons, List.not_mem_nil, or_false, BitVec.toNat_ofNat]
    omega
  | seImm _ _ | sneImm _ _ | ldImm _ _ | addImm _ _ | rnd _ _ | skp _ | sknp _ | ldVxDt _ | ldVxK _ | ldDtVx _ | ldStVx _
  | addIVx _ | ldFVx _ | ldBVx _ | storeRegs _ | loadRegs _ =>
    simp only [Reserved, encode, wordNN_toNat, List.mem_cons, List.not_mem_nil, or_false, BitVec.toNat_ofNat]
    omega

theorem decode_of_reserved (h : Reserved w.toNat) : decode w = .failure w := by
  cases hd : decode w with
  | failure v => rw [decode_failure_word hd]
  | op i => exact absurd (encode_of_decode hd ▸ h) (not_reserved_encode i)

theorem reserved_family0 (hf : family w = 0x0) (h1 : w ≠ 0x00E0#16) (h2 : w ≠ 0x00EE#16) : Reserved w.toNat := by
  have hle : w.toNat ≤ 0x0FFF := by
    unfold family at hf
    omega
  exact .inl ⟨hle, fun e => h1 (BitVec.eq_of_toNat_eq e), fun e => h2 (BitVec.eq_of_toNat_eq e)⟩

theorem reserved_family5 (hf : family w = 0x5) (h : w.toNat % 0x10 ≠ 0) : Reserved w.toNat := .inr (.inl ⟨.inl hf, h⟩)

theorem reserved_family9 (hf : family w = 0x9) (h : w.toNat % 0x10 ≠ 0) : Reserved w.toNat := .inr (.inl ⟨.inr hf, h⟩)

theorem reserved_family8 (hf : family w = 0x8) (h : w.toNat % 0x10 ∈ [0x8, 0x9, 0xA, 0xB, 0xC, 0xD, 0xF]) :
    Reserved w.toNat := .inr (.inr (.inl ⟨hf, h⟩))

theorem reserved_familyE (hf : family w = 0xE) (h : w.toNat % 0x100 ∉ [0x9E, 0xA1]) : Reserved w.toNat :=
  .inr (.inr (.inr (.inl ⟨hf, h⟩)))

theorem reserved_familyF (hf : family w = 0xF)
    (h : w.toNat % 0x100 ∉ [0x07, 0x0A, 0x15, 0x18, 0x1E, 0x29, 0x33, 0x55, 0x65]) : Reserved w.toNat :=
  .inr (.inr (.inr (.inr ⟨hf, h⟩)))

theorem reserved_of_decodeFamily0 {v : Word} (hf : family w = 0x0) (h : decodeFamily0 w = .failure v) : Reserved w.toNat := by
  unfold decodeFamily0 at h
  split at h
  · cases h
  · split at h
    · cases h
    · exact reserved_family0 hf ‹_› ‹_›

theorem reserved_of_decodeFamily5 {v : Word} (hf : family w = 0x5) (h : decodeFamily5 w = .failure v) : Reserved w.toNat := by
  unfold decodeFamily5 at h
  split at h
  · cases h
  · next hn => exact reserved_family5 hf fun e => hn (BitVec.eq_of_toNat_eq ((fieldN_toNat w).trans e))

theorem reserved_of_decodeFamily9 {v : Word} (hf : family w = 0x9) (h : decodeFamily9 w = .failure v) : Reserved w.toNat := by
  unfold decodeFamily9 at h
  split at h
  · cases h
  · next hn => exact reserved_family9 hf fun e => hn (BitVec.eq_of_toNat_eq ((fieldN_toNat w).trans e))

theorem reserved_of_decodeFamily8 {v : Word} (hf : family w = 0x8) (h : decodeFamily8 w = .failure v) : Reserved w.toNat := by
  refine reserved_family8 hf ?_
  unfold decodeFamily8 at h
  split at h
  case h_10 =>
    simp only [fieldN_toNat, imp_false, List.mem_cons, List.not_mem_nil, or_false] at *
    omega
  all_goals cases h

theorem reserved_of_decodeFamilyE {v : Word} (hf : family w = 0xE) (h : decodeFamilyE w = .failure v) : Reserved w.toNat := by
  refine reserved_familyE hf fun hn => ?_
  simp only [decodeFamilyE, ← BitVec.toNat_inj, fieldNN_toNat, BitVec.toNat_ofNat] at h
  simp only [List.mem_cons, List.not_mem_nil, or_false] at hn
  obtain hn | hn := hn <;> simp [hn] at h

theorem reserved_of_decodeFamilyF {v : Word} (hf : family w = 0xF) (h : decodeFamilyF w = .failure v) : Reserved w.toNat := by
  refine reserved_familyF hf fun hn => ?_
  simp only [decodeFamilyF, ← BitVec.toNat_inj, fieldNN_toNat, BitVec.toNat_ofNat] at h
  simp only [List.mem_cons, List.not_mem_nil, or_false] at hn
  obtain hn | hn | hn | hn | hn | hn | hn | hn | hn := hn <;> simp [hn] at h

/-- Only the families with sub-functions can fail, each on its own reserved words. -/
theorem reserved_of_decode_failure {v : Word} (h : decode w = .failure v) : Reserved w.toNat := by
  unfold decode at h
  simp only [← family_eq_fieldOp] at h
  split at h
  case h_1 hf => exact reserved_of_decodeFamily0 hf h
  case h_6 hf => exact reserved_of_decodeFamily5 hf h
  case h_9 hf => exact reserved_of_decodeFamily8 hf h
  case h_10 hf => exact reserved_of_decodeFamily9 hf h
  case h_15 hf => exact reserved_of_decodeFamilyE hf h
  case h_16 =>
    have hf : family w = 0xF := by
      simp only [imp_false, family] at *
      omega
    exact reserved_of_decodeFamilyF hf h
  all_goals cases h

end Sys2Proof
end

section
/-! Every event but a Load during a run has a next state: a fault is a state (40_cycle.md R81, R83). -/

namespace Sys2Proof.Machine

theorem guarded_next (s : State) (i : Instr) (k : Option Cause) (rest : State) : ∃ t, guarded s i k rest = .next t := by
  cases k with
  | none => exact ⟨_, guarded_none s i rest rfl⟩
  | some c => exact ⟨_, guarded_some s i rest rfl⟩

theorem exec_next (i : Instr) (s : State) : ∃ t, exec i s = .next t := by
  cases i with
  | ret =>
    obtain hs | hs := Nat.eq_zero_or_pos s.sp.val
    · exact ⟨_, exec_ret_empty s hs⟩
    · exact ⟨_, exec_ret_pops s hs⟩
  | call nnn =>
    obtain hs | hs : s.sp.val = 16 ∨ s.sp.val < 16 := by omega
    · exact ⟨_, exec_call_full s nnn hs⟩
    · exact ⟨_, exec_call_room s nnn hs⟩
  | drw _ _ _ | ldBVx _ | storeRegs _ | loadRegs _ => exact guarded_next ..
  | _ => exact ⟨_, rfl⟩

theorem cycle_next (c : State) : ∃ t, cycle c = .next t := by
  cases hs : c.status with
  | halted => exact ⟨c, cycle_terminal (by simp [hs, Status.Terminal])⟩
  | faulted f => exact ⟨c, cycle_terminal (by simp [hs, Status.Terminal])⟩
  | awaitingKey x => exact ⟨_, cycle_awaiting hs⟩
  | running =>
    obtain hp | hp | hp : 0x1000 ≤ c.pc.toNat ∨ c.pc.toNat = 0xFFF ∨ c.pc.toNat ≤ 0xFFE := by omega
    · exact ⟨_, cycle_halts hs hp⟩
    · exact ⟨_, cycle_fetch_faults hs hp⟩
    · have hf : c.Fetches := ⟨hs, hp⟩
      cases hd : decode c.fetchWord with
      | failure w => exact ⟨_, cycle_decode_faults hf hd⟩
      | op i => exact cycle_executes hf hd ▸ exec_next i c.advance

end Sys2Proof.Machine
end

section
/-! The statements of the encoding (30_encoding.md), and that every event is answered (40_cycle.md R83). -/

namespace Sys2Proof.Proofs

open Sys2Proof.Machine Sys2Proof.Claims

/-- Settles O3: an instruction's family and sub-function lead back to its own row, which reads its fields back. -/
theorem decodeOfEncodeIsTheInstruction : Obligations.DecodeOfEncodeIsTheInstruction :=
  fun i _ => decode_encode i

/-- Settles O2: in each row the word is the row's encoding, or it is reserved. -/
theorem decoderFollowsTheFamilyTables : Obligations.DecoderFollowsTheFamilyTables := by
  intro w
  refine ⟨?family0, decode_rowNNN rfl, decode_rowNNN rfl, decode_rowXNN rfl, decode_rowXNN rfl, ?family5, decode_rowXNN rfl,
    decode_rowXNN rfl, decode_rowXY rfl, decode_rowXY rfl, decode_rowXY rfl, decode_rowXY rfl, decode_rowXY rfl,
    decode_rowXY rfl, decode_rowXY rfl, decode_rowXY rfl, decode_rowXY rfl,
    fun h hn => decode_of_reserved (reserved_family8 h hn), ?family9, decode_rowNNN rfl, decode_rowNNN rfl,
    decode_rowXNN rfl, decode_rowXYN rfl, ?familyE, decode_rowX rfl, decode_rowX rfl, decode_rowX rfl, decode_rowX rfl,
    decode_rowX rfl, decode_rowX rfl, decode_rowX rfl, decode_rowX rfl, decode_rowX rfl,
    fun h hn => decode_of_reserved (reserved_familyF h hn)⟩
  case family0 =>
    intro h
    split_ifs with h1 h2
    · exact decode_of_encode h1.symm
    · exact decode_of_encode h2.symm
    · exact decode_of_reserved (reserved_family0 h h1 h2)
  case family5 =>
    intro h
    split_ifs with hn
    · exact decode_rowXY rfl h hn
    · exact decode_of_reserved (reserved_family5 h hn)
  case family9 =>
    intro h
    split_ifs with hn
    · exact decode_rowXY rfl h hn
    · exact decode_of_reserved (reserved_family9 h hn)
  case familyE =>
    intro h
    split_ifs with h1 h2
    · exact decode_rowX rfl h h1
    · exact decode_rowX rfl h h2
    · exact decode_of_reserved (reserved_familyE h (by simp [h1, h2]))

/-- Settles O4: every row of the decoder takes the fields that the row's encoding puts back. -/
theorem encodeOfDecodedIsTheWord : Obligations.EncodeOfDecodedIsTheWord :=
  fun _ _ => encode_of_decode

/-- Settles O5: a reserved word encodes no instruction, and a word that fails is reserved in its family. -/
theorem reservedWordsAreExactlyTheDecodeFailures : Obligations.ReservedWordsAreExactlyTheDecodeFailures := by
  refine fun w => ⟨decode_of_reserved, fun hr => ?_⟩
  cases hd : decode w with
  | op i => exact ⟨i, rfl⟩
  | failure v => exact absurd (reserved_of_decode_failure hd) hr

/-- Settles O41: a cycle, a Tick and a Reset are always answered, a Load where no Cycle came before it. -/
theorem everyEventHasANextState : Obligations.EveryEventHasANextState := by
  intro s
  obtain ⟨c, hb⟩ | ⟨_, he⟩ | ⟨_, he⟩ | ⟨image, rest, he⟩ := event_cases s
  · exact .inl (step_cycle hb ▸ cycle_next c)
  · exact .inl ⟨_, step_tick he⟩
  · exact .inl ⟨_, step_reset he⟩
  · rw [step_load he, loadEvent, State.dropEvent_env]
    cases hs : s.env.started with
    | true => exact .inr ⟨⟨image, rest, he⟩, rfl, if_pos rfl⟩
    | false => exact .inl ⟨s.dropEvent.load image, if_neg Bool.false_ne_true⟩

/-- Settles O1: eight words are the encodings of their instructions, three are on the reserved list. -/
theorem decodesWordsWrittenOut : Obligations.DecodesWordsWrittenOut :=
  ⟨decode_of_encode rfl, decode_of_encode rfl, decode_of_encode rfl, decode_of_encode rfl, decode_of_encode rfl,
    decode_of_encode rfl, decode_of_encode rfl, decode_of_encode rfl, decode_of_reserved (by decide),
    decode_of_reserved (by decide), decode_of_reserved (by decide)⟩

end Sys2Proof.Proofs
end

section
/-! The poll of a key wait by the keys that are new (45_input_timers.md R122), and the instructions that have a check to fail
(60_exceptions.md R125). -/

namespace Sys2Proof.Machine

/-! ### The new keys and the least of them -/

theorem newKeys_getLsbD (p : Params) (keys klatch : Word) (k : Nat) :
    (newKeys p keys klatch).getLsbD k = true ↔
      keys.getLsbD k = true ∧ (p.keyWaitTrigger = .edge → klatch.getLsbD k = false) := by
  unfold newKeys
  cases p.keyWaitTrigger with
  | level => simp
  | edge =>
    simp only [BitVec.getLsbD_and, BitVec.getLsbD_not, Bool.and_eq_true, Bool.not_eq_true', decide_eq_true_eq, true_imp_iff]
    exact and_congr_right fun hk => and_iff_right (BitVec.lt_of_getLsbD hk)

theorem lowestKey_eq_none {new : Word} (h : ∀ k, k < 16 → ¬new.getLsbD k = true) : lowestKey new = none := by
  rw [lowestKey, List.find?_range_eq_none.2 fun k hk => by simpa using h k hk, Option.map_none]

theorem lowestKey_eq_some {new : Word} {k : Nat} (hk : k < 16) (hn : new.getLsbD k = true)
    (hleast : ∀ j, j < k → ¬new.getLsbD j = true) : lowestKey new = some (BitVec.ofNat 4 k) := by
  have hfind : (List.range 16).find? (fun j => new.getLsbD j) = some k :=
    List.find?_range_eq_some.2 ⟨hn, List.mem_range.2 hk, fun j hj => by simpa using hleast j hj⟩
  rw [lowestKey, hfind, Option.map_some]

/-! ### The poll (R73, R122) -/

theorem waitPoll_klatch (s : State) (x : Nibble) : (s.waitPoll x).klatch = s.env.keys := by
  unfold State.waitPoll
  split <;> rfl

theorem waitPoll_result {s : State} {x : Nibble} (h : s.status = .awaitingKey x) : (s.waitPoll x).result = .running := by
  obtain he | he := waitPoll_cases s x
  · rw [he, State.result, State.setKlatch_status, h]
  · rw [State.result, he]

theorem waitPoll_waits {s : State} (x : Nibble) (h : lowestKey (newKeys s.params s.env.keys s.klatch) = none) :
    s.waitPoll x = s.setKlatch s.env.keys := by
  rw [State.waitPoll, h]

theorem waitPoll_ends {s : State} {k : Nibble} (x : Nibble)
    (h : lowestKey (newKeys s.params s.env.keys s.klatch) = some k) :
    s.waitPoll x = ((s.setV x (nibbleByte k)).setKlatch s.env.keys).setStatus .running := by
  rw [State.waitPoll, h]

/-! ### Which instructions can fault -/

/-- Only CALL, RET and the instructions that access memory at I raise a fault. -/
theorem RaisedBy.instr {i : Instr} {s : State} {k : Cause} (h : RaisedBy i s k) :
    (∃ nnn, i = .call nnn) ∨ i = .ret ∨ ∃ len, accessLength i = some len := by
  cases k with
  | decodeError => exact h.elim
  | stackOverflow => exact .inl h.1
  | stackUnderflow => exact .inr (.inl h.1)
  | memoryBoundsError base len =>
    obtain ⟨_, hlen, _⟩ := h
    exact .inr (.inr ⟨len, hlen⟩)

end Sys2Proof.Machine
end

section
/-! The statements of the cycle (40_cycle.md): a word that names no instruction, the key wait, the terminal statuses, and that
every instruction is answered. -/

namespace Sys2Proof.Proofs

open Sys2Proof.Machine Sys2Proof.Claims

/-- Settles O7: the decoder fails on a reserved word, and the fault is taken at the pc of the cycle's start. -/
theorem reservedWordRaisesDecodeError : Obligations.ReservedWordRaisesDecodeError := by
  intro s c hb hf hw
  have hd : decode c.fetchWord = .failure s.fetchWord := by rw [BeginsCycle_fetchWord hb, decode_of_reserved hw]
  refine ⟨_, (step_cycle hb).trans (cycle_decode_faults ((BeginsCycle_fetches hb).2 hf) hd), ?_, rfl, rfl,
    ((BeginsCycle_frame hb).mono (by simp)).trans ((takeFault_here_frame c _ _).mono (by simp))⟩
  rw [State.takeFault_status, BeginsCycle_pc hb]

/-- Settles O10: the poll takes what `lowestKey` finds among the new keys, none or the least of them. -/
theorem keyWaitPollTakesTheLowestNewKey : Obligations.KeyWaitPollTakesTheLowestNewKey := by
  intro s c x hb hs new hnew
  have hlatch : c.klatch = s.klatch := BeginsCycle_frame hb .klatch (by simp)
  have hbit (k : Nat) : (newKeys c.params c.env.keys c.klatch).getLsbD k = true ↔ new k := by
    rw [newKeys_getLsbD, BeginsCycle_params hb, hlatch, hnew]
  rw [← BeginsCycle_status hb] at hs
  refine ⟨_, (step_cycle hb).trans (cycle_awaiting hs), waitPoll_klatch c x, ?_, waitPoll_frame c x .env (by simp),
    waitPoll_result hs, fun hnone => ?_, fun k hk hkn hleast => ?_⟩
  · exact (waitPoll_frame c x .displayUpdate (by simp)).trans (BeginsCycle_displayUpdate hb)
  · rw [waitPoll_waits x (lowestKey_eq_none fun k hk => (hbit k).not.2 (hnone k hk))]
    exact ((BeginsCycle_frame hb).mono (by simp)).trans ((setKlatch_frame c _).mono (by simp))
  · have he := waitPoll_ends x (lowestKey_eq_some hk ((hbit k).2 hkn) fun j hj => (hbit j).not.2 (hleast j hj))
    refine ⟨?_, by rw [he, State.setStatus_status],
      ((BeginsCycle_frame hb).mono (by simp)).trans ((waitPoll_frame c x).mono (by simp))⟩
    rw [he, State.setStatus_getV, State.setKlatch_getV, State.setV_getV_same, nibbleByte_toNat, nibble_ofNat_toNat hk]

/-- Settles O9: the cycle ends where it began, with its inputs sampled. -/
theorem terminalStatusIgnoresCycles : Obligations.TerminalStatusIgnoresCycles := by
  intro s c hb ht
  have hs := BeginsCycle_status hb
  refine ⟨c, (step_cycle hb).trans (cycle_terminal (hs ▸ ht)), hs, fun h => ?_, fun f h => ?_,
    BeginsCycle_displayUpdate hb, rfl, BeginsCycle_frame hb⟩
  · rw [State.result, hs, h]
  · rw [State.result, hs, h]

/-- Settles O42: an instruction's answer is Faulted where it raised a fault, or where the state was Faulted before. -/
theorem everyInstructionHasANextState : Obligations.EveryInstructionHasANextState := by
  intro i s
  obtain ⟨t, ht⟩ := exec_next i s
  refine ⟨t, ht, fun ⟨f, hf⟩ => ?_⟩
  obtain ⟨k, hk, _⟩ | ⟨x, _, hx⟩ | he := exec_status i ht
  · right
    obtain ⟨_, rfl⟩ | rfl | ⟨len, hlen⟩ := hk.instr
    · trivial
    · trivial
    · cases i with
      | drw _ _ _ | ldBVx _ | storeRegs _ | loadRegs _ => trivial
      | _ => cases hlen
  · cases hx.symm.trans hf
  · exact .inl ⟨f, he ▸ hf⟩

end Sys2Proof.Proofs
end

section
/-! The statements of control flow (41_control_flow.md R86 to R92): the skips, the jumps, and a RET after its CALL. -/

namespace Sys2Proof.Proofs

open Sys2Proof.Machine Sys2Proof.Claims

/-! ### The skips (40_cycle.md R78) -/

/-- An instruction that is a conditional skip meets the shape in which the statements speak of skips, for what its test
decides. -/
theorem skipsWhen_of_skipIf {i : Instr} {s : State} {b : Bool} {c : Prop} (h : exec i s = .next (s.skipIf b))
    (hc : b = true ↔ c) : SkipsWhen i s c := by
  refine ⟨_, h, fun ht => ?_, fun hf => ?_, skipIf_frame s b⟩
  · rw [hc.2 ht]
    rfl
  · rw [Bool.eq_false_iff.2 (mt hc.1 hf)]
    rfl

/-- Settles O17: each of the four is a skip, and its test decides the comparison of the statement. -/
theorem skipsCompareRegisters : Obligations.SkipsCompareRegisters :=
  fun _ _ _ _ => ⟨skipsWhen_of_skipIf rfl beq_iff_eq, skipsWhen_of_skipIf rfl bne_iff_ne,
    skipsWhen_of_skipIf rfl beq_iff_eq, skipsWhen_of_skipIf rfl bne_iff_ne⟩

/-! ### The jumps -/

/-- Settles O19: both write the pc alone, and neither target wraps in 16 bits. -/
theorem jumpsSetThePc : Obligations.JumpsSetThePc :=
  fun s nnn => ⟨⟨_, rfl, zext16_toNat nnn, setPc_frame s _⟩, ⟨_, rfl, jpV0_target nnn (s.getV 0), setPc_frame s _⟩⟩

/-! ### CALL, then RET -/

/-- Settles O22: the entry CALL writes is the one RET pops, and the pc that RET runs with is not read. -/
theorem retReturnsAfterTheCall : Obligations.RetReturnsAfterTheCall := by
  intro s nnn pc' hs
  have hpos : 0 < ((s.afterCall nnn hs).setPc pc').sp.val := Nat.succ_pos s.sp.val
  exact ⟨_, _, exec_call_room s nnn hs, exec_ret_pops _ hpos, Vector.getElem_set_self hs, rfl⟩

end Sys2Proof.Proofs
end

section
/-! The flags of the ALU as numbers (10_state.md R14, 42_alu.md R99 to R103), and the instructions that write a register and VF. -/

namespace Sys2Proof.Machine

open Sys2Proof.Claims

/-! ### The flags as numbers -/

theorem carryFlag_toNat (a b : Byte) : (carryFlag a b).toNat = bitOf (a.toNat + b.toNat > 255) := by
  rw [carryFlag, flagByte_toNat]
  simp only [decide_eq_true_eq]

theorem noBorrowFlag_toNat (a b : Byte) : (noBorrowFlag a b).toNat = bitOf (a.toNat ≥ b.toNat) := by
  rw [noBorrowFlag, flagByte_toNat]
  simp only [decide_eq_true_eq]

theorem lowBitFlag_toNat (a : Byte) : (lowBitFlag a).toNat = a.toNat % 2 := by
  have hbit : a.getLsbD 0 = decide (a.toNat % 2 = 1) := Nat.testBit_zero a.toNat
  rw [lowBitFlag, flagByte_toNat, hbit]
  simp only [decide_eq_true_eq]
  split <;> omega

theorem highBitFlag_toNat (a : Byte) : (highBitFlag a).toNat = bitOf (a.toNat ≥ 128) := by
  have hbit : a.getLsbD 7 = decide (128 ≤ a.toNat) := a.msb_eq_getLsbD_last.symm.trans a.msb_eq_decide
  rw [highBitFlag, flagByte_toNat, hbit]
  simp only [decide_eq_true_eq, ge_iff_le]

/-! ### The shifts by one as numbers -/

theorem byte_shiftRight_one_toNat (a : Byte) : (a >>> 1).toNat = a.toNat / 2 := by
  rw [BitVec.toNat_ushiftRight, Nat.shiftRight_one]

theorem byte_shiftLeft_one_toNat (a : Byte) : (a <<< 1).toNat = 2 * a.toNat % 256 := by
  rw [BitVec.toNat_shiftLeft, Nat.shiftLeft_eq, Nat.mul_comm]

/-! ### What a destination and VF hold afterwards -/

section

variable {i : Instr} {s : State} {x : Nibble}

/-- An instruction that is WriteWithFlag meets the shape in which the statements speak of results with a flag, for the numbers
that its two bytes are. -/
theorem writesWithFlag_of_writeWithFlag {b c : Byte} {r f : Nat} (h : exec i s = .next (s.writeWithFlag x b c))
    (hr : b.toNat = r) (hf : c.toNat = f) : WritesWithFlag i s x r f := by
  subst hr hf
  refine ⟨_, h, fun hx => ?_, fun hx ho => ?_, fun hx ho => ?_, writeWithFlag_frame s x b c⟩
  · rw [s.writeWithFlag_getV_dest b c hx, s.writeWithFlag_getV_flag b c hx]
    exact ⟨rfl, rfl⟩
  · rw [hx, s.writeWithFlag_getV_VF, ho]
  · rw [hx, s.writeWithFlag_getV_VF, ho]

/-- `i` leaves r in V[x] and f in VF, or, for x = VF under flag_last, g in VF: one row of the table of R106. -/
def LeavesRow (i : Instr) (s : State) (x : Nibble) (r f g : Nat) : Prop :=
  (Completes i s fun t => (x ≠ VF → (t.getV x).toNat = r ∧ (t.getV VF).toNat = f)) ∧
    (x = VF → s.params.flagOrder = .flagLast → Completes i s fun t => (t.getV VF).toNat = g)

/-- The row of an instruction with a flag: the flag is what VF ends as. -/
theorem leavesRow_of_writesWithFlag {r f r' f' : Nat} (h : WritesWithFlag i s x r f) (hr : r = r') (hf : f = f') :
    LeavesRow i s x r' f' f' := by
  subst hr hf
  obtain ⟨t, ht, hother, hflagLast, _, _⟩ := h
  exact ⟨⟨t, ht, hother⟩, fun hx ho => ⟨t, ht, hflagLast hx ho⟩⟩

/-- The row of an instruction that writes V[x] alone: VF stays where it is not the destination, and holds the data where it is. -/
theorem leavesRow_of_setV {b : Byte} {r : Nat} (h : exec i s = .next (s.setV x b)) (hr : b.toNat = r) :
    LeavesRow i s x r (s.getV VF).toNat r := by
  subst hr
  refine ⟨⟨_, h, fun hx => ?_⟩, fun hx _ => ⟨_, h, ?_⟩⟩
  · rw [s.setV_getV_same, s.setV_getV_other b hx]
    exact ⟨rfl, rfl⟩
  · exact hx ▸ congrArg BitVec.toNat (s.setV_getV_same x b)

end

end Sys2Proof.Machine
end

section
/-! The statements of the register loads, the ALU and the random byte (42_alu.md R93 to R106). -/

namespace Sys2Proof.Proofs

open Sys2Proof.Machine Sys2Proof.Claims

/-! ### Results with a flag -/

/-- Settles O27: each is WriteWithFlag, of a sum or difference modulo 256 and of the flag on the operands before. -/
theorem sumsAndDifferencesSetVF : Obligations.SumsAndDifferencesSetVF :=
  fun s x y =>
    ⟨writesWithFlag_of_writeWithFlag rfl (BitVec.toNat_add (s.getV x) (s.getV y)) (carryFlag_toNat _ _),
      writesWithFlag_of_writeWithFlag rfl (byte_sub_toNat _ _) (noBorrowFlag_toNat _ _),
      writesWithFlag_of_writeWithFlag rfl (byte_sub_toNat _ _) (noBorrowFlag_toNat _ _)⟩

/-- Settles O28: each is WriteWithFlag, of V[X] shifted by one and of the bit that leaves it. -/
theorem shiftsSetVFToTheBitShiftedOut : Obligations.ShiftsSetVFToTheBitShiftedOut :=
  fun _ _ _ =>
    ⟨writesWithFlag_of_writeWithFlag rfl (byte_shiftRight_one_toNat _) (lowBitFlag_toNat _),
      writesWithFlag_of_writeWithFlag rfl (byte_shiftLeft_one_toNat _) (highBitFlag_toNat _)⟩

/-! ### One register as both operands -/

/-- Settles O29: the rows of the instructions without a flag are those of one register write; the others follow from the
statements of sums, differences and shifts at Y = X, with the results and flags worked out for equal operands. -/
theorem sameRegisterAsBothOperands : Obligations.SameRegisterAsBothOperands := by
  intro s x
  obtain ⟨hadd, hsub, hsubn⟩ := sumsAndDifferencesSetVF s x x
  obtain ⟨hshr, hshl⟩ := shiftsSetVFToTheBitShiftedOut s x x
  have hv := (s.getV x).isLt
  have hdouble : ((s.getV x).toNat + (s.getV x).toNat) % 256 = 2 * (s.getV x).toNat % 256 := by rw [Nat.two_mul]
  have hcarry : bitOf ((s.getV x).toNat + (s.getV x).toNat > 255) = bitOf ((s.getV x).toNat ≥ 128) :=
    if_congr (by omega) rfl rfl
  have hzero : ((s.getV x).toNat + 256 - (s.getV x).toNat) % 256 = 0 := by omega
  have hone : bitOf ((s.getV x).toNat ≥ (s.getV x).toNat) = 1 := if_pos le_rfl
  have hhigh : bitOf ((s.getV x).toNat ≥ 128) = (s.getV x).toNat / 128 := by
    unfold bitOf
    split <;> omega
  obtain ⟨ld, ldVF⟩ : LeavesRow (.ldReg x x) s x _ _ _ := leavesRow_of_setV rfl rfl
  obtain ⟨or, orVF⟩ : LeavesRow (.or x x) s x _ _ _ := leavesRow_of_setV rfl (congrArg _ BitVec.or_self)
  obtain ⟨and, andVF⟩ : LeavesRow (.and x x) s x _ _ _ := leavesRow_of_setV rfl (congrArg _ BitVec.and_self)
  obtain ⟨xor, xorVF⟩ : LeavesRow (.xor x x) s x 0 _ _ := leavesRow_of_setV rfl (congrArg _ BitVec.xor_self)
  obtain ⟨add, addVF⟩ := leavesRow_of_writesWithFlag hadd hdouble hcarry
  obtain ⟨sub, subVF⟩ := leavesRow_of_writesWithFlag hsub hzero hone
  obtain ⟨shr, shrVF⟩ := leavesRow_of_writesWithFlag hshr rfl rfl
  obtain ⟨subn, subnVF⟩ := leavesRow_of_writesWithFlag hsubn hzero hone
  obtain ⟨shl, shlVF⟩ := leavesRow_of_writesWithFlag hshl rfl hhigh
  exact ⟨ld, or, and, xor, add, sub, shr, subn, shl, ldVF, orVF, andVF, xorVF, addVF, subVF, shrVF, subnVF, shlVF⟩

/-! ### Results without a flag -/

/-- Settles O23: each is one register write. -/
theorem loadsCopyIntoTheRegister : Obligations.LoadsCopyIntoTheRegister :=
  fun s x _ _ =>
    ⟨⟨_, rfl, s.setV_getV_same x _, setV_frame s x _⟩, ⟨_, rfl, s.setV_getV_same x _, setV_frame s x _⟩,
      ⟨_, rfl, s.setV_getV_same x _, setV_frame s x _⟩⟩

/-- Settles O24: one register write, of a sum of bytes. -/
theorem addImmediateWrapsWithoutAFlag : Obligations.AddImmediateWrapsWithoutAFlag := by
  intro s x nn
  refine ⟨_, rfl, ?_, setV_frame s x _⟩
  rw [s.setV_getV_same, BitVec.toNat_add]

/-- Settles O25: one register write each, of a byte whose bits are those of the operands combined. -/
theorem logicIsBitwiseAndLeavesVFAlone : Obligations.LogicIsBitwiseAndLeavesVFAlone := by
  intro s x y
  refine ⟨⟨_, rfl, fun k => ?_, setV_frame s x _⟩, ⟨_, rfl, fun k => ?_, setV_frame s x _⟩,
    ⟨_, rfl, fun k => ?_, setV_frame s x _⟩⟩
  · rw [s.setV_getV_same, BitVec.getLsbD_or]
  · rw [s.setV_getV_same, BitVec.getLsbD_and]
  · rw [s.setV_getV_same, BitVec.getLsbD_xor]

/-- Settles O26: one register write, of the environment's byte or the free one, masked. -/
theorem rndMasksTheRandomByte : Obligations.RndMasksTheRandomByte := by
  intro s x nn
  refine ⟨_, rfl, fun b hb => ?_, fun hnone => ?_, fun k hk => ?_, setV_frame s x _⟩
  · rw [s.setV_getV_same, State.rndByte, hb, Option.getD_some]
  · rw [s.setV_getV_same, State.rndByte, hnone, Option.getD_none]
  · rw [s.setV_getV_same, BitVec.getLsbD_and, hk, Bool.and_false]

end Sys2Proof.Proofs
end

section
/-! The statements of the index register (43_index_memory.md R107 to R109). -/

namespace Sys2Proof.Machine

open Sys2Proof.Claims

/-- The sum of FX1E wraps at 16 bits (D10). -/
theorem addIndex_toNat (i : Word) (b : Byte) : (i + zext16Byte b).toNat = (i.toNat + b.toNat) % 0x10000 := by
  rw [BitVec.toNat_add, zext16Byte_toNat]

theorem indexFlag_toNat (i : Word) (b : Byte) : (indexFlag i b).toNat = bitOf (i.toNat + b.toNat > 0xFFF) := by
  rw [indexFlag, flagByte_toNat]
  simp only [decide_eq_true_eq]

end Sys2Proof.Machine

namespace Sys2Proof.Proofs

open Sys2Proof.Machine Sys2Proof.Claims

/-- Settles O30: both write I alone, and neither the zero-extended address nor the glyph's address wraps in 16 bits. -/
theorem indexLoadsSetI : Obligations.IndexLoadsSetI := by
  intro s x nnn
  refine ⟨⟨_, rfl, zext16_toNat nnn, setI_frame s _⟩, ⟨_, rfl, ?_, setI_frame s _⟩⟩
  rw [s.setI_I, glyphAddress_toNat, lowNibble_toNat]

/-- Settles O31: in either order of the two writes I ends as the sum and VF as the flag, both of V[X] as it was before. -/
theorem addToIndexWrapsAndFlagsPastMemory : Obligations.AddToIndexWrapsAndFlagsPastMemory := by
  intro s x
  refine ⟨_, rfl, ?_, ?_, writeIWithFlag_frame s _ _⟩
  · rw [s.writeIWithFlag_eq, State.setV_I, s.setI_I, addIndex_toNat]
  · rw [s.writeIWithFlag_eq, State.setV_getV_same, indexFlag_toNat]

end Sys2Proof.Proofs
end

section
/-! DXYN as a list of places (44_display.md R115, R116): the cells a draw inverts, the flag it leaves, and what a draw at the same
place inverts again. -/

namespace Sys2Proof.Machine

/-- The places that DXYN in state s toggles, in the order of the loops of R115. -/
def State.drawnPlaces (s : State) (x y n : Nibble) : List Place :=
  spritePlaces s.params (spriteX (s.getV x)) (spriteY (s.getV y)) 0 (s.readBytes s.I.toNat n.toNat)

section
variable (s : State) (x y n : Nibble) (row : Fin 32) (col : Fin 64)

/-- The places of the draw loops are the cells that the sprite covers (R114). -/
theorem State.mem_drawnPlaces : (row, col) ∈ s.drawnPlaces x y n ↔ s.Covers x y n row col := by
  simp only [State.drawnPlaces, mem_spritePlaces, State.Covers, LandsAt, spriteBit_iff, screenRow_eq_some,
    State.length_readBytes, State.getElem_readBytes, spriteY_val, Nat.zero_add]
  have hcol (c : Nat) : screenColumn (spriteX (s.getV x)) c = col ↔ col.val = ((s.getV x).toNat % 64 + c) % 64 :=
    Fin.ext_iff.trans eq_comm
  constructor
  · rintro ⟨r, hr, c, hc, hbit, hrow, hx⟩
    exact ⟨r, c, hr, hc, hbit, (hcol c).1 hx, hrow⟩
  · rintro ⟨r, c, hr, hc, hbit, hx, hrow⟩
    exact ⟨r, hr, c, hc, hbit, hrow, (hcol c).2 hx⟩

theorem State.nodup_drawnPlaces : (s.drawnPlaces x y n).Nodup :=
  nodup_spritePlaces _ _ _ _ _ (by rw [State.length_readBytes]; omega)

/-- A draw toggles its places and tells in VF whether one of them was on. -/
theorem State.draw_eq : s.draw x y n =
    (s.showFb (toggleAll (s.fb, false) (s.drawnPlaces x y n)).1).setV VF
      (flagByte (toggleAll (s.fb, false) (s.drawnPlaces x y n)).2) := by
  rw [State.draw, drawRows_eq]
  rfl

theorem State.draw_cell :
    cell (s.draw x y n).fb row col = (cell s.fb row col ^^ decide ((row, col) ∈ s.drawnPlaces x y n)) := by
  rw [s.draw_eq, State.setV_fb, State.showFb_fb]
  exact cell_toggleAll (s.fb, false) _ (s.nodup_drawnPlaces x y n) (row, col)

theorem State.draw_getV_VF :
    (s.draw x y n).getV VF = flagByte ((s.drawnPlaces x y n).any fun q => cell s.fb q.1 q.2) := by
  rw [s.draw_eq, State.setV_getV_same, hit_toggleAll _ _ (s.nodup_drawnPlaces x y n), Bool.false_or]

@[simp] theorem State.draw_displayUpdate : (s.draw x y n).displayUpdate = true := rfl

/-! ### The same in terms of the cells covered -/

variable {s x y n row col}

theorem State.draw_cell_covered (h : s.Covers x y n row col) : cell (s.draw x y n).fb row col = !cell s.fb row col := by
  rw [s.draw_cell, decide_eq_true ((s.mem_drawnPlaces x y n row col).2 h), Bool.xor_true]

theorem State.draw_cell_uncovered (h : ¬s.Covers x y n row col) : cell (s.draw x y n).fb row col = cell s.fb row col := by
  rw [s.draw_cell, decide_eq_false (mt (s.mem_drawnPlaces x y n row col).1 h), Bool.xor_false]

theorem flagByte_eq_one_iff {c : Bool} : flagByte c = 1 ↔ c = true := by cases c <;> decide

theorem flagByte_eq_zero_iff {c : Bool} : flagByte c = 0 ↔ c = false := by cases c <;> decide

/-- One of the places drawn is on exactly where the sprite covers a cell that is on. -/
theorem State.any_drawnPlaces_iff : (s.drawnPlaces x y n).any (fun q => cell s.fb q.1 q.2) = true ↔
    ∃ row col, s.Covers x y n row col ∧ cell s.fb row col = true := by
  simp only [List.any_eq_true, Prod.exists, State.mem_drawnPlaces]

theorem State.draw_getV_VF_eq_one_iff :
    (s.draw x y n).getV VF = 1 ↔ ∃ row col, s.Covers x y n row col ∧ cell s.fb row col = true := by
  rw [s.draw_getV_VF, flagByte_eq_one_iff, State.any_drawnPlaces_iff]

theorem State.draw_getV_VF_eq_zero_iff :
    (s.draw x y n).getV VF = 0 ↔ ¬∃ row col, s.Covers x y n row col ∧ cell s.fb row col = true := by
  rw [s.draw_getV_VF, flagByte_eq_zero_iff, Bool.eq_false_iff, ne_eq, State.any_drawnPlaces_iff]

/-! ### The same draw once more -/

/-- A draw leaves all that it reads but the framebuffer, where its coordinates are not in VF: a second one covers the same
cells. -/
theorem State.draw_covers (hx : x ≠ VF) (hy : y ≠ VF) : (s.draw x y n).Covers x y n row col ↔ s.Covers x y n row col := by
  have hframe := draw_frame s x y n
  have hVx : (s.draw x y n).getV x = s.getV x := hframe (.v x) (by simpa using hx)
  have hVy : (s.draw x y n).getV y = s.getV y := hframe (.v y) (by simpa using hy)
  rw [State.Covers, hVx, hVy]
  rfl

theorem State.draw_draw_cell (hx : x ≠ VF) (hy : y ≠ VF) :
    cell ((s.draw x y n).draw x y n).fb row col = cell s.fb row col := by
  by_cases h : s.Covers x y n row col
  · rw [State.draw_cell_covered ((State.draw_covers hx hy).2 h), State.draw_cell_covered h, Bool.not_not]
  · rw [State.draw_cell_uncovered (mt (State.draw_covers hx hy).1 h), State.draw_cell_uncovered h]

/-- The cells a draw turns on are those it covers that are on after it. -/
theorem State.draw_turns_on_iff : cell s.fb row col = false ∧ cell (s.draw x y n).fb row col = true ↔
    s.Covers x y n row col ∧ cell (s.draw x y n).fb row col = true := by
  refine and_congr_left fun hon => ?_
  by_cases h : s.Covers x y n row col
  · rw [State.draw_cell_covered h, Bool.not_eq_true'] at hon
    exact iff_of_true hon h
  · rw [State.draw_cell_uncovered h] at hon
    exact iff_of_false (by rw [hon]; decide) h

theorem exec_drw_draws (h : n = 0 ∨ s.I.toNat + n.toNat ≤ 0x1000) : exec (.drw x y n) s = .next (s.draw x y n) :=
  guarded_none s _ _ ((checkRange_eq_none _ _).2 (h.imp_left (congrArg BitVec.toNat)))

end

end Sys2Proof.Machine
end

section
/-! The statements of the display (44_display.md R113 to R116). -/

namespace Sys2Proof.Proofs

open Sys2Proof.Machine Sys2Proof.Claims

/-- Settles O36: CLS shows the clear framebuffer and does no more. -/
theorem clsClearsTheScreen : Obligations.ClsClearsTheScreen :=
  fun s => ⟨_, rfl, cell_clearFb, s.showFb_displayUpdate _, showFb_frame s _⟩

/-- Settles O37: where the check passes the draw toggles the covered cells, no cell twice; otherwise it raises its one fault. -/
theorem drwTogglesTheCoveredCells : Obligations.DrwTogglesTheCoveredCells := by
  intro s x y n
  refine ⟨fun h => ⟨_, exec_drw_draws h, fun _ _ => State.draw_cell_covered, fun _ _ => State.draw_cell_uncovered,
    State.draw_getV_VF_eq_one_iff.2, State.draw_getV_VF_eq_zero_iff.2, s.draw_displayUpdate x y n, draw_frame s x y n⟩,
    fun hn h => ?_⟩
  have hpos : 0 < n.toNat := Nat.pos_of_ne_zero fun h0 => hn (BitVec.eq_of_toNat_eq h0)
  exact faults_of_raiseFault (guarded_some s _ _ ((checkRange_eq_some _ _ _).2 ⟨rfl, hpos, h⟩))

/-- Settles O38: the second draw covers the cells of the first and inverts them back; those it finds on are those that the first
turned on. -/
theorem drawingTwiceRestoresTheScreen : Obligations.DrawingTwiceRestoresTheScreen := by
  intro s x y n hx hy h
  refine ⟨_, _, exec_drw_draws h, exec_drw_draws h, fun row col => State.draw_draw_cell hx hy, ?_⟩
  simp only [State.draw_getV_VF_eq_one_iff, State.draw_covers hx hy, State.draw_turns_on_iff]

end Sys2Proof.Proofs
end

section
/-! SUPPORT. Tick events in a row (60_exceptions.md R134): what one tick does to the timers, and a run that begins with a
step. -/

namespace Sys2Proof.Machine

/-- A run over one more event, where that event answers a next state. -/
theorem run_succ {M : Host.Core} {s t : M.State} (n : Nat) (h : M.step s = .next t) : M.run (n + 1) s = M.run n t := by
  rw [Host.Core.run, h]

variable {s : State}

/-- Outside a terminal status a tick counts both timers down. -/
theorem tick_counts (h : ¬s.status.Terminal) : s.tick = (s.setDt (countDown s.dt)).setSt (countDown s.st) := by
  unfold State.tick
  split
  · rfl
  · rfl
  · next hs => exact absurd (by simp [hs, Status.Terminal]) h
  · next hs => exact absurd (by simp [hs, Status.Terminal]) h

theorem tick_dt_toNat (h : ¬s.status.Terminal) : s.tick.dt.toNat = s.dt.toNat - 1 := by
  rw [tick_counts h, State.setSt_dt, State.setDt_dt, countDown_toNat]

theorem tick_st_toNat (h : ¬s.status.Terminal) : s.tick.st.toNat = s.st.toNat - 1 := by
  rw [tick_counts h, State.setSt_st, countDown_toNat]

/-- Sound is active while ST is not 0 (R124). -/
theorem soundActive_iff : s.soundActive = true ↔ s.st ≠ 0 := bne_iff_ne

/-- The key that EX9E and EXA1 test: bit V mod 16 of the key vector (D7). -/
theorem keyPressed_lowNibble (keys : Word) (b : Byte) : keyPressed keys (lowNibble b) = keys.getLsbD (b.toNat % 16) := by
  rw [keyPressed, lowNibble_toNat]

end Sys2Proof.Machine
end

section
/-! The statements of keys and timers (45_input_timers.md R118 to R124), and of ticks in a row (60_exceptions.md R134). -/

namespace Sys2Proof.Proofs

open Sys2Proof.Machine Sys2Proof.Claims

/-- Settles O12, by induction on the number of ticks: the first one takes 1 from each timer, and the status it leaves, still
not terminal, lets the rest take theirs. -/
theorem ticksRunTheTimersOut : Obligations.TicksRunTheTimersOut := by
  intro n
  induction n with
  | zero => exact fun s _ _ _ => ⟨s, rfl, rfl, rfl, .refl s⟩
  | succ n ih =>
    intro s rest hs he
    have hd : ¬s.dropEvent.status.Terminal := hs
    have hs' : ¬s.dropEvent.tick.status.Terminal := by rwa [tick_status]
    have he' : s.dropEvent.tick.env.events = List.replicate n Event.tick ++ rest := by
      rw [tick_env, State.dropEvent_env, he]
      rfl
    obtain ⟨t, hrun, hdt, hst, hframe⟩ := ih s.dropEvent.tick rest hs' he'
    refine ⟨t, (run_succ (M := core) n (step_tick he)).trans hrun, ?_, ?_, (tickEvent_frame s).trans hframe⟩
    · rw [hdt, tick_dt_toNat hd, State.dropEvent_dt, Nat.sub_sub, Nat.add_comm]
    · rw [hst, tick_st_toNat hd, State.dropEvent_st, Nat.sub_sub, Nat.add_comm]

/-- Settles O18: both are skips, and their tests read the bit of the key port that V[X] mod 16 names. -/
theorem skipsReadTheKeys : Obligations.SkipsReadTheKeys := by
  intro s x
  refine ⟨skipsWhen_of_skipIf rfl ?_, skipsWhen_of_skipIf rfl ?_⟩
  · rw [keyPressed_lowNibble]
  · rw [keyPressed_lowNibble, Bool.not_eq_true']

/-- Settles O39: the latch and the status are all it writes. -/
theorem keyWaitBeginsWithoutAnAnswer : Obligations.KeyWaitBeginsWithoutAnAnswer :=
  fun s x => ⟨_, rfl, rfl, rfl,
    ((setKlatch_frame s _).mono (by simp)).trans ((setStatus_frame _ (.awaitingKey x)).mono (by simp))⟩

/-- Settles O40: each is one timer write, and sound_active reads the ST written. -/
theorem timerLoadsSetTheTimers : Obligations.TimerLoadsSetTheTimers :=
  fun s _ => ⟨⟨_, rfl, rfl, setDt_frame s _⟩, ⟨_, rfl, rfl, soundActive_iff, setSt_frame s _⟩⟩

end Sys2Proof.Proofs
end

section
/-! The statements of ticks and of the random byte (60_exceptions.md R134, R139). -/

namespace Sys2Proof.Machine

/-- A terminal status ignores a tick (D18). -/
theorem tick_terminal {s : State} (h : s.status.Terminal) : s.tick = s := by
  unfold State.tick
  split
  · next hs => exact absurd h (by simp [hs, Status.Terminal])
  · next hs => exact absurd h (by simp [hs, Status.Terminal])
  · rfl
  · rfl

end Sys2Proof.Machine

namespace Sys2Proof.Proofs

open Sys2Proof.Machine Sys2Proof.Claims

/-- Settles O53: execution commutes with a change of the random byte and of the cycle's number for every instruction but the
one that uses them; the three that use the key port find it as it was. -/
theorem onlyRndReadsTheRandomByte : Obligations.OnlyRndReadsTheRandomByte := by
  intro i s r k hi
  refine exec_mapPorts id id (fun e => { e with rnd := r, cycleNo := k }) s i ?_
  cases i with
  | rnd x nn => exact absurd rfl (hi x nn)
  | skp _ | sknp _ | ldVxK _ | ldStVx _ => rfl
  | _ => trivial

/-- Settles O11: the event leaves the queue; then a status that is not terminal counts both timers down, and a terminal one leaves
the state as it is. -/
theorem tickCountsTheTimersDown : Obligations.TickCountsTheTimersDown := by
  intro s rest he
  refine ⟨_, step_tick he, ?_, fun hs => ?_, fun hs => ?_⟩
  · rw [tick_env, State.dropEvent_env, he, List.tail_cons]
  · have hd : ¬s.dropEvent.status.Terminal := hs
    exact ⟨tick_dt_toNat hd, tick_st_toNat hd, tickEvent_frame s⟩
  · have hd : s.dropEvent.status.Terminal := hs
    rw [tick_terminal hd]
    exact dropEvent_frame s

end Sys2Proof.Proofs
end

section
/-! What a Load does to the bytes, by the image's length and P_LOADER_OVERSIZE, and when it is refused (70_reset_and_hazards.md
R148, R149). -/

namespace Sys2Proof.Machine

variable {s : State} {image : List Byte} {rest : List Event}

/-! ### The image's bytes -/

theorem loadImage_readByte_getElem (s : State) (image : List Byte) {j : Nat} (hj : j < image.length) :
    (s.loadImage image).readByte (0x200 + j) = image[j] :=
  s.storeBytes_readByte_getElem _ _ hj

theorem loadImage_readByte_outside {a : Nat} (ha : a < 0x200 ∨ 0x200 + image.length ≤ a) :
    (s.loadImage image).readByte a = s.readByte a := by
  refine storeBytes_frame s 0x200 image (.byte a) ?_
  rintro ⟨j, hj, hp⟩
  obtain rfl := Piece.byte.inj hp
  omega

/-! ### The loader copies or rejects (R149) -/

/-- An image that is not rejected is copied up to the 3584 bytes there is room for; one that fits loses nothing by it. -/
theorem load_copies (h : image.length ≤ 3584 ∨ s.params.loaderOversize = .truncate) :
    s.load image = s.loadImage (image.take 3584) := by
  unfold State.load
  split
  · next hfits => rw [List.take_of_length_le hfits]
  · next hlong => rw [h.resolve_left hlong]

theorem load_rejects (hlong : 3584 < image.length) (hr : s.params.loaderOversize = .reject) :
    s.load image = { s with loadResult := some .rejected } := by
  rw [State.load, if_neg (Nat.not_le.2 hlong), hr]

/-- Every image is copied, whole or truncated, or it is oversize and rejected. -/
theorem load_cases (s : State) (image : List Byte) :
    (image.length ≤ 3584 ∨ s.params.loaderOversize = .truncate) ∨
      3584 < image.length ∧ s.params.loaderOversize = .reject := by
  cases s.params.loaderOversize with
  | truncate => exact .inl (.inr rfl)
  | reject => exact (Nat.lt_or_ge 3584 image.length).symm.imp .inl fun h => ⟨h, rfl⟩

theorem load_readByte_outside {a : Nat} (ha : a < 0x200 ∨ 0x200 + min image.length 3584 ≤ a) :
    (s.load image).readByte a = s.readByte a := by
  obtain hcopy | ⟨hlong, hr⟩ := load_cases s image
  · rw [load_copies hcopy]
    exact loadImage_readByte_outside (by rwa [List.length_take, Nat.min_comm])
  · rw [load_rejects hlong hr]
    rfl

theorem load_readByte_getElem (h : image.length ≤ 3584 ∨ s.params.loaderOversize = .truncate) {j : Nat} (hj : j < 3584)
    (hi : j < image.length) : (s.load image).readByte (0x200 + j) = image[j] := by
  rw [load_copies h, loadImage_readByte_getElem _ _ (by rw [List.length_take]; exact lt_min hj hi), List.getElem_take]

@[simp] theorem load_env (s : State) (image : List Byte) : (s.load image).env = s.env :=
  load_frame s image .env (by simp)

/-! ### The Load event (R148) -/

theorem step_load_fresh (he : s.env.events = .load image :: rest) (hs : s.env.started = false) :
    step s = .next (s.dropEvent.load image) := by
  rw [step_load he, loadEvent, State.dropEvent_env, hs, if_neg Bool.false_ne_true]

theorem step_load_started (he : s.env.events = .load image :: rest) (hs : s.env.started = true) :
    step s = .refused .loadDuringRun := by
  rw [step_load he, loadEvent, State.dropEvent_env, hs, if_pos rfl]

end Sys2Proof.Machine

namespace Sys2Proof.Proofs

open Sys2Proof.Machine Sys2Proof.Claims

/-- Settles O15: the event leaves the queue and the loader then copies, truncates or rejects; its frame leaves every other
piece. -/
theorem loadWritesTheImageAtTheProgramBase : Obligations.LoadWritesTheImageAtTheProgramBase := by
  intro s image rest he hs
  refine ⟨_, step_load_fresh he hs, ?_, ?_, ?_, ?_, ?_⟩
  · rw [load_env, State.dropEvent_env, he, List.tail_cons]
  · intro p henv hresult hbyte
    refine loadEvent_frame s image p ?_
    rintro (h | h | ⟨a, h⟩)
    exacts [henv h, hresult h, hbyte a h]
  · exact fun a ha => load_readByte_outside ha
  · intro h
    refine ⟨?_, fun j hj hi => load_readByte_getElem (s := s.dropEvent) h hj hi⟩
    rw [load_copies (s := s.dropEvent) h]
    rfl
  · intro hlong hr
    rw [load_rejects (s := s.dropEvent) hlong hr]
    exact ⟨rfl, fun _ => rfl⟩

/-- Settles O16: the event is refused by name before the image is looked at. -/
theorem loadDuringARunIsRefused : Obligations.LoadDuringARunIsRefused :=
  fun _ _ _ he hs => step_load_started he hs

end Sys2Proof.Proofs
end
